-- ==== Sys2Proof/Word.lean ====
section
/-! DEFINITION. The words of the block: bytes, the register widths, and buffers of a fixed number of entries. -/

namespace Sys2Proof

/-- A byte is 8 bits (R8). -/
abbrev Byte := BitVec 8

/-- Every register of the window is 32 bits wide (R41). -/
abbrev Word := BitVec 32

/-- The width of `STREAM` and of the `L2K` and `L3AK` entries (R15, R21, R22). -/
abbrev DWord := BitVec 64

/-- The width of `A`, `B` and `R` (R17, R18). -/
abbrev QWord := BitVec 128

/-- A buffer or bank: exactly `n` entries (R12, R14, R19 to R23, R25), held as a list so that two
buffers compare as lists do. -/
structure Buf (α : Type) (n : Nat) where
  toList : List α
  size   : toList.length = n
deriving DecidableEq, Repr

/-- A 16-byte string: a key or a block of the cipher (R52), `KEY`, `NONCE`, `PAD`. -/
abbrev Bytes16 := Buf Byte 16

end Sys2Proof
end

