-- ==== Sys2Proof/Syntax.lean ====
section
/-! DEFINITION. The commands (one constructor for each row of the opcode table), the registers of the window by
name, and what the outside of the block can do to it. -/

namespace Sys2Proof

/-- The nine commands (R61). A command has no operand field (R60, R63). -/
inductive Instr where
  | mulmod
  | kdf
  | dsub1
  | dsub2
  | dsub3a
  | dsub3b
  | dsub
  | dpad
  | srst
deriving DecidableEq, Repr

/-- The 32-bit registers of the window, one name for each row of the address map (R41). -/
inductive Reg where
  | id | cmd | status | err | taglen | nonceLen | len | skn | streamHi | streamLo | olen | padlen
  | key (w : Fin 4)
  | nonce (w : Fin 4)
  | a (w : Fin 4)
  | b (w : Fin 4)
  | r (w : Fin 4)
  | pad (w : Fin 4)
  | l2kHi (j : Fin 12)
  | l2kLo (j : Fin 12)
  | l3akHi (j : Fin 32)
  | l3akLo (j : Fin 32)
  | l3bk (j : Fin 4)
  | l1k (j : Fin 268)
  | obuf (w : Fin 268)
deriving DecidableEq, Repr

/-- The access rights of a register (R41): the host may read and write, read only, or write only. -/
inductive Access where
  | rw
  | ro
  | wo
deriving DecidableEq, Repr

/-- One input to the block: a host access of some width in bytes at a byte offset of the window (R42), or the
hardware reset input (R130). The value of a write has a meaning only where the width is 4 (log entry 9). -/
inductive HostInput where
  | read (off width : Nat)
  | write (off width : Nat) (value : Word)
  | rst
deriving DecidableEq, Repr

/-- The wide numbers that `LD128` loads (R65). -/
inductive WideOperand where
  | a
  | b
deriving DecidableEq, Repr

/-- The 64-bit entries that `RD64` reads (R65). -/
inductive WideEntry where
  | l2k (j : Fin 12)
  | l3ak (j : Fin 32)
deriving DecidableEq, Repr

/-- The lines of a host script, pseudo-instructions among them (R65). -/
inductive ScriptLine where
  | wr (reg : Reg) (value : Word)
  | rd (reg : Reg)
  | command (i : Instr)
  | cmd (value : Word)
  | ldkey (bytes : Bytes16)
  | ldnonce (bytes : List Byte)
  | ld128 (dst : WideOperand) (value : QWord)
  | ld64 (value : DWord)
  | rd128
  | rd64 (src : WideEntry)
  | check
deriving DecidableEq, Repr

end Sys2Proof
end

