-- ==== Sys2Proof/Decode.lean ====
section
/-! DEFINITION. Command words: the decoder, total on every 32-bit word, and the encoder. -/

namespace Sys2Proof

/-- Why a command word is illegal (R62): a set bit in the `ZERO` field, or an `OP` with no command. -/
inductive IllegalWord where
  | zeroFieldSet
  | noSuchOpcode
deriving DecidableEq, Repr

/-- What a command word decodes to. -/
inductive Decoded where
  | instr (i : Instr)
  | illegal (why : IllegalWord)
deriving DecidableEq, Repr

/-- The opcode map (R61). -/
def opcodeMap : List (Word × Instr) :=
  [(0x00000001#32, .mulmod), (0x00000002#32, .kdf), (0x00000003#32, .dsub1), (0x00000004#32, .dsub2),
   (0x00000005#32, .dsub3a), (0x00000006#32, .dsub3b), (0x00000007#32, .dsub), (0x00000008#32, .dpad),
   (0x0000000F#32, .srst)]

/-- The `ZERO` field, bits 31:8 (R60). -/
def zeroField (v : Word) : BitVec 24 := v.extractLsb' 8 24

/-- The `OP` field, bits 7:0 (R60). -/
def opField (v : Word) : Byte := v.extractLsb' 0 8

/-- The decoder: a comparison of the whole word against the nine words (R60, R61); every other word is
illegal (R62). -/
def decode (v : Word) : Decoded :=
  match opcodeMap.lookup v with
  | some i => .instr i
  | none => .illegal (if zeroField v = 0 then .noSuchOpcode else .zeroFieldSet)

/-- The `OP` code of a command (R61). -/
def opcode : Instr → Byte
  | .mulmod => 0x01#8
  | .kdf    => 0x02#8
  | .dsub1  => 0x03#8
  | .dsub2  => 0x04#8
  | .dsub3a => 0x05#8
  | .dsub3b => 0x06#8
  | .dsub   => 0x07#8
  | .dpad   => 0x08#8
  | .srst   => 0x0F#8

/-- The word of a command: 24 zero bits, then `OP` (R60). -/
def encode (i : Instr) : Word := 0#24 ++ opcode i

/-- The value of a table row's bits: only the low `nbits` count. -/
def tableWord (nbits w : Nat) : Nat := w % 2 ^ nbits

/-- The instruction the decoder reads from a table row's word. A value that does not fit the one 32-bit
command word is no instruction (R60, R64). -/
def decodeTableWord (nbits w : Nat) : Option Instr :=
  if tableWord nbits w < 2 ^ 32 then
    match decode (BitVec.ofNat 32 (tableWord nbits w)) with
    | .instr i => some i
    | .illegal _ => none
  else none

end Sys2Proof
end

