-- ==== Sys2Proof/Config.lean ====
section
/-! DEFINITION. What is fixed for the machine: the parameters of R5 and R6, the hardwired `ID`, and the one
open parameter, the cipher (R7). -/

namespace Sys2Proof.Config

/-- Byte `i` of the block that the external cipher gives for a 16-byte key and a block (R7); `Machine.encrypt` is
the block itself. OPEN: the spec names no cipher, so the constant has no body and a theorem about the machine
holds for every cipher. The requests that the responder does not answer with a block are in `State.lapses`.
Log entries 1 and 2. -/
opaque encryptByte : Bytes16 → Bytes16 → Nat → Byte

/-- `P = 2^128 - 159`, the modulus of the multiplier (R5, R70). -/
def P : Nat := 2 ^ 128 - 159

/-- `P36 = 2^36 - 5`, the layer-3a modulus (R5, R86; 90_conflicts C3). -/
def P36 : Nat := 2 ^ 36 - 5

/-- `L2MASK`, which keeps bits 0 to 24 and 32 to 56 (R5, R85). -/
def l2Mask : DWord := 0x01FFFFFF01FFFFFF#64

/-- The cipher block size in bytes (R5). -/
def blockLen : Nat := 16

/-- Stream indices (R5): pad key, layer-1, layer-2, layer-3a, layer-3b. -/
def idxPad : DWord := 0#64
def idxL1  : DWord := 1#64
def idxL2  : DWord := 2#64
def idxL3a : DWord := 3#64
def idxL3b : DWord := 4#64

/-- `L1WORDS(i) = 256 + (i-1)*4` (R5). -/
def l1Words (iters : Nat) : Nat := 256 + (iters - 1) * 4

/-- The layer-1 key length in bytes, four for each word (R84). -/
def l1Bytes (iters : Nat) : Nat := 4 * l1Words iters

/-- `L2BYTES(i) = i*24` (R5). -/
def l2Bytes (iters : Nat) : Nat := iters * 24

/-- `L3ABYTES(i) = i*64` (R5). -/
def l3aBytes (iters : Nat) : Nat := iters * 64

/-- `L3BBYTES(i) = i*4` (R5). -/
def l3bBytes (iters : Nat) : Nat := iters * 4

/-- `PADKEYLEN` (R5). -/
def padKeyLen : Nat := 16

/-- `OBUF_BYTES` (R6). -/
def obufBytes : Nat := 1072

/-- `NONCE_MAX` (R6). -/
def nonceMax : Nat := 16

/-- `WINDOW`, the size of the register window in bytes (R6, R40). -/
def window : Nat := 0x2000

/-- `ID_VALUE`, the hardwired `ID` register (R6, R28). -/
def idValue : Word := 0x4C554301#32

end Sys2Proof.Config
end

