-- ==== Sys2Proof/Machine/Bytes.lean ====
section
/-! DEFINITION. Byte strings and buffers: big-endian decode and encode (R8), reading, filling and building a
buffer, and the 32-bit words of byte buffers and of wide numbers (R44). -/

namespace Sys2Proof.Machine

/-- Entry `i`; 0 (the default of a bit vector) where there is none. -/
def bufRead {α : Type} [Inhabited α] {n : Nat} (b : Buf α n) (i : Nat) : α := b.toList.getD i default

/-- The buffer of `n` entries whose entry `i` is `f i`. Irreducible, so that the elaborator never spells a buffer
out; proofs read it through `bufRead_bufOf`, and the kernel evaluates it as any definition. -/
@[irreducible] def bufOf {α : Type} (n : Nat) (f : Nat → α) : Buf α n := ⟨(List.range n).map f, by simp⟩

/-- The buffer of `n` equal entries; irreducible as `bufOf` is. -/
@[irreducible] def bufFill {α : Type} (n : Nat) (x : α) : Buf α n := ⟨List.replicate n x, by simp⟩

/-- Byte `i` of a string, 0 past its end: what the zero fills of R77, R96 and R97 ask for. -/
def byteAt (s : List Byte) (i : Nat) : Byte := s.getD i 0#8

/-- `s || zeros(n - len(s))`, the first `n` bytes of it (R77, R96 step 2, R97). -/
def zeroPadded (n : Nat) (s : List Byte) : Buf Byte n := bufOf n (byteAt s)

/-- `s[off .. off+n)` (R8). -/
def slice (s : List Byte) (off n : Nat) : List Byte := (s.drop off).take n

/-- `be(s)`: the first byte is the most significant (R8). -/
def be (s : List Byte) : Nat := s.foldl (fun acc x => acc * 256 + x.toNat) 0

/-- The `n`-byte string whose `be` is `v`, for `v` below `256^n`: `enc32`, `enc64`, `enc128` (R8). -/
def enc (n v : Nat) : List Byte := (List.range n).map fun k => BitVec.ofNat 8 (v / 256 ^ (n - 1 - k))

/-- `be32` of the four bytes at `off` (R8). -/
def be32At (s : List Byte) (off : Nat) : Word := BitVec.ofNat 32 (be (slice s off 4))

/-- `be64` of the eight bytes at `off` (R8). -/
def be64At (s : List Byte) (off : Nat) : DWord := BitVec.ofNat 64 (be (slice s off 8))

/-- Word `w` of a byte buffer, the byte with the lowest index in bits 31 to 24 (R44 (a)). -/
def bufWord {n : Nat} (b : Buf Byte n) (w : Nat) : Word := be32At b.toList (4 * w)

/-- The buffer with word `w` set to `v`: bytes `4w` to `4w+3` become `enc32(v)` (R44 (a)). -/
def setBufWord {n : Nat} (b : Buf Byte n) (w : Nat) (v : Word) : Buf Byte n :=
  bufOf n fun i => if i / 4 = w then byteAt (enc 4 v.toNat) (i % 4) else bufRead b i

/-- Word `w` of a wide number of `words` 32-bit words, the most significant word first (R44 (b)). -/
def numWord {width : Nat} (words : Nat) (x : BitVec width) (w : Nat) : Word :=
  x.extractLsb' (32 * (words - 1 - w)) 32

/-- The wide number with word `w` set to `v`, all other bits kept (R44 (b), R46 (a)). -/
def setNumWord {width : Nat} (words : Nat) (x : BitVec width) (w : Nat) (v : Word) : BitVec width :=
  let sh := 32 * (words - 1 - w)
  (x &&& ~~~((0xFFFFFFFF#32).setWidth width <<< sh)) ||| (v.setWidth width <<< sh)

end Sys2Proof.Machine
end

