-- ==== Sys2Proof/Machine/State.lean ====
section
/-! DEFINITION. The state of the block (R10), the inputs and the trace of the agents around it, why a step can
stop, and the state after the hardware reset (R32). -/

namespace Sys2Proof.Machine

/-- The fault codes (R111). Codes 7 to 255 are never written, so they have no name. -/
inductive ErrCode where
  | eNone
  | eOp
  | eKey
  | eTaglen
  | eLen
  | eNonce
  | eCipher
deriving DecidableEq, Repr

/-- The complete state of the block (R10): nothing else is state (R30). `ID` is hardwired (R28) and
`STATUS.KEYV` combinational (R26), so neither is stored. -/
structure Block where
  key      : Bytes16            -- KEY, the master key (R12)
  keyw     : BitVec 4           -- KEYW, which key words have been written (R12)
  taglen   : Word               -- TAGLEN, in bits (R13)
  nonce    : Bytes16            -- NONCE (R14)
  nonceLen : Word               -- NONCE_LEN (R14)
  stream   : DWord              -- STREAM (R15)
  len      : Word               -- LEN (R16)
  a        : QWord              -- A (R17)
  b        : QWord              -- B (R17)
  r        : QWord              -- R (R18)
  obuf     : Buf Byte 1072      -- OBUF (R19)
  olen     : Word               -- OLEN (R19)
  l1k      : Buf Word 268       -- L1K (R20)
  l2k      : Buf DWord 12       -- L2K (R21)
  l3ak     : Buf DWord 32       -- L3AK (R22)
  l3bk     : Buf Word 4         -- L3BK (R23)
  l1i      : BitVec 3           -- SKN.L1I (R24)
  l2i      : BitVec 3           -- SKN.L2I (R24)
  l3ai     : BitVec 3           -- SKN.L3AI (R24)
  l3bi     : BitVec 3           -- SKN.L3BI (R24)
  pad      : Bytes16            -- PAD (R25)
  padlen   : Word               -- PADLEN (R25)
  done     : Bool               -- STATUS.DONE (R26)
  fault    : Bool               -- STATUS.FAULT (R26)
  err      : ErrCode            -- ERR (R27)
deriving DecidableEq, Repr

/-- One request at the cipher port: a key and a block (R52). -/
structure CipherRequest where
  key   : Bytes16
  block : Bytes16
deriving DecidableEq, Repr

/-- The two ways in which the responder does not give a block: it answers `CipherFail` (R52, R117), or it
never answers (R136). -/
inductive CipherLapse where
  | fail
  | silent
deriving DecidableEq, Repr

/-- The block and what stands around it. The last four fields are the model's own and no state of the block:
the host and the reset input as inputs, the words that host reads returned, the requests seen at the cipher
port (R53), and the requests that the responder does not answer with a block (log entries 2, 3, 5, 6). -/
structure State where
  block    : Block
  accesses : List HostInput                       -- oldest first
  replies  : List Word                            -- oldest first
  requests : List CipherRequest                   -- oldest first
  lapses   : List (CipherRequest × CipherLapse)   -- written by no step
deriving DecidableEq, Repr

/-- Why a step stops for good. The spec's own faults (R110) are no stop: they are next states. -/
inductive Fault where
  /-- Raised by a command whose cipher request is never answered: the command and the host's `CMD` write never
  complete (R52, R136; U9 `stuck`). Safe: the model stops where the hardware hangs. -/
  | cipherHang
deriving DecidableEq, Repr

/-- Why a step has no meaning. -/
inductive Refusal where
  /-- Raised by `exec` for an instruction that has no meaning yet; no arm raises it. Safe. -/
  | notModelled (mnemonic : String)
  /-- Raised by a host access that is not 4 bytes wide or not aligned: "the model refuses it" (R42). Safe. -/
  | undefinedAccess (off width : Nat)
  /-- Raised by a host access at an offset beyond the 8 KiB window, which is no access to this block (R40).
  Safe. -/
  | outsideWindow (off : Nat)
  /-- Raised by a host access at an unmapped offset of the window: "refused by the model" (R43 (c)). Safe. -/
  | unmappedOffset (off : Nat)
deriving DecidableEq, Repr

/-- The three outcomes of a step. -/
abbrev Result := Host.Outcome State Fault Refusal

/-- The block after the hardware reset: every piece of state at its reset value (R32). -/
def Block.reset : Block where
  key      := bufFill 16 0#8
  keyw     := 0#4
  taglen   := 0#32
  nonce    := bufFill 16 0#8
  nonceLen := 0#32
  stream   := 0#64
  len      := 0#32
  a        := 0#128
  b        := 0#128
  r        := 0#128
  obuf     := bufFill 1072 0#8
  olen     := 0#32
  l1k      := bufFill 268 0#32
  l2k      := bufFill 12 0#64
  l3ak     := bufFill 32 0#64
  l3bk     := bufFill 4 0#32
  l1i      := 0#3
  l2i      := 0#3
  l3ai     := 0#3
  l3bi     := 0#3
  pad      := bufFill 16 0#8
  padlen   := 0#32
  done     := false
  fault    := false
  err      := .eNone

/-- The machine right after the hardware reset, no input pending (R126: it "does nothing until a host access
arrives"), nothing seen at the ports. The four lists at reset are DESIGN CHOICE (log entries 2, 3, 5, 6). -/
def State.reset : State where
  block    := Block.reset
  accesses := []
  replies  := []
  requests := []
  lapses   := []

end Sys2Proof.Machine
end

