-- ==== Sys2Proof/Machine/Cipher.lean ====
section
/-! DEFINITION. The cipher port (R52, R53): what the responder answers, and runs of requests, which record what
was asked and stop at the first request that is not answered with a block (R117). -/

namespace Sys2Proof.Machine

/-- A responder: for a key and a block, the block it answers, or why it answers none (R7, R52). -/
abbrev Cipher := Bytes16 → Bytes16 → Except CipherLapse Bytes16

/-- The cipher's block for a key and a block (R7), whose bytes are the open constant of Config. -/
def encrypt (k x : Bytes16) : Bytes16 := bufOf 16 (Config.encryptByte k x)

/-- The responder of the machine: `encrypt`, but for the requests listed in `lapses`. -/
def State.cipher (s : State) : Cipher := fun k x =>
  match s.lapses.lookup ⟨k, x⟩ with
  | some lapse => .error lapse
  | none => .ok (encrypt k x)

/-- The requests that a derivation issued, in order, and what it came to. -/
structure PortRun (α : Type) where
  requests : List CipherRequest
  result   : Except CipherLapse α

/-- A derivation that asks nothing. -/
def PortRun.done {α : Type} (x : α) : PortRun α := ⟨[], .ok x⟩

def PortRun.map {α β : Type} (f : α → β) (run : PortRun α) : PortRun β := ⟨run.requests, run.result.map f⟩

/-- One derivation, then the next, which is begun only where the first came to an end with blocks alone. -/
def PortRun.andThen {α β : Type} (run : PortRun α) (f : α → PortRun β) : PortRun β :=
  match run.result with
  | .ok x => ⟨run.requests ++ (f x).requests, (f x).result⟩
  | .error lapse => ⟨run.requests, .error lapse⟩

/-- One request (R52). -/
def ask (E : Cipher) (k x : Bytes16) : PortRun Bytes16 := ⟨[⟨k, x⟩], E k x⟩

/-- The blocks `xs` under one key, one request at a time, in order; the answers joined (R52, R76). -/
def askAll (E : Cipher) (k : Bytes16) : List Bytes16 → PortRun (List Byte)
  | [] => .done []
  | x :: xs => (ask E k x).andThen fun y => (askAll E k xs).map fun ys => y.toList ++ ys

end Sys2Proof.Machine
end

