-- ==== Sys2Proof/Machine/AddressMap.lean ====
section
/-! DEFINITION. The address map (R41): the offset of each register, the register at an offset, access rights. -/

namespace Sys2Proof.Machine

/-- The byte offset of a register (R41). -/
def offset : Reg → Nat
  | .id       => 0x0000
  | .cmd      => 0x0004
  | .status   => 0x0008
  | .err      => 0x000C
  | .taglen   => 0x0010
  | .nonceLen => 0x0014
  | .len      => 0x0018
  | .skn      => 0x001C
  | .streamHi => 0x0020
  | .streamLo => 0x0024
  | .olen     => 0x0028
  | .padlen   => 0x002C
  | .key w    => 0x0030 + 4 * w.val
  | .nonce w  => 0x0040 + 4 * w.val
  | .a w      => 0x0050 + 4 * w.val
  | .b w      => 0x0060 + 4 * w.val
  | .r w      => 0x0070 + 4 * w.val
  | .pad w    => 0x0080 + 4 * w.val
  | .l2kHi j  => 0x0100 + 8 * j.val
  | .l2kLo j  => 0x0104 + 8 * j.val
  | .l3akHi j => 0x0180 + 8 * j.val
  | .l3akLo j => 0x0184 + 8 * j.val
  | .l3bk j   => 0x0280 + 4 * j.val
  | .l1k j    => 0x0400 + 4 * j.val
  | .obuf w   => 0x0C00 + 4 * w.val

/-- The registers that stand alone, by offset (R41). -/
def singleRegs : List (Nat × Reg) :=
  [(0x0000, .id), (0x0004, .cmd), (0x0008, .status), (0x000C, .err), (0x0010, .taglen), (0x0014, .nonceLen),
   (0x0018, .len), (0x001C, .skn), (0x0020, .streamHi), (0x0024, .streamLo), (0x0028, .olen), (0x002C, .padlen)]

/-- The index of `off` in a row of `n` registers from `base`, `stride` bytes apart. -/
def rowIndex (base stride n off : Nat) : Option (Fin n) :=
  if h : (off - base) / stride < n then
    if base ≤ off ∧ (off - base) % stride = 0 then some ⟨(off - base) / stride, h⟩ else none
  else none

/-- The register at a byte offset, none where the map has no register (R41, R43 (c)). -/
def regAt (off : Nat) : Option Reg :=
  (singleRegs.lookup off)
  <|> (rowIndex 0x0030 4 4 off).map Reg.key
  <|> (rowIndex 0x0040 4 4 off).map Reg.nonce
  <|> (rowIndex 0x0050 4 4 off).map Reg.a
  <|> (rowIndex 0x0060 4 4 off).map Reg.b
  <|> (rowIndex 0x0070 4 4 off).map Reg.r
  <|> (rowIndex 0x0080 4 4 off).map Reg.pad
  <|> (rowIndex 0x0100 8 12 off).map Reg.l2kHi
  <|> (rowIndex 0x0104 8 12 off).map Reg.l2kLo
  <|> (rowIndex 0x0180 8 32 off).map Reg.l3akHi
  <|> (rowIndex 0x0184 8 32 off).map Reg.l3akLo
  <|> (rowIndex 0x0280 4 4 off).map Reg.l3bk
  <|> (rowIndex 0x0400 4 268 off).map Reg.l1k
  <|> (rowIndex 0x0C00 4 268 off).map Reg.obuf

/-- The access rights of a register (R41). -/
def access : Reg → Access
  | .cmd | .key _ => .wo
  | .taglen | .nonceLen | .len | .streamHi | .streamLo | .nonce _ | .a _ | .b _ => .rw
  | .id | .status | .err | .skn | .olen | .padlen | .r _ | .pad _ | .l2kHi _ | .l2kLo _ | .l3akHi _ | .l3akLo _
  | .l3bk _ | .l1k _ | .obuf _ => .ro

end Sys2Proof.Machine
end

