-- ==== Sys2Proof/Machine/Operands.lean ====
section
/-! DEFINITION. The operands of the commands and the checks on them: the key, the tag length, the length and the
nonce (R63, R12 to R16, R83, R99). -/

namespace Sys2Proof.Machine

/-- The key is loaded when `KEYW = 0b1111` (R12). -/
def Block.keyLoaded (b : Block) : Bool := b.keyw == 0b1111#4

/-- `TAGLEN` is 32, 64, 96 or 128, compared over all 32 bits (R13, R83). -/
def tagLegal (t : Word) : Bool := t == 32#32 || t == 64#32 || t == 96#32 || t == 128#32

/-- `iters = TAGLEN div 32` (R83). -/
def iters (t : Word) : Nat := t.toNat / 32

/-- The tag length in bytes, `L = TAGLEN div 8` (R96, R97). -/
def tagBytes (t : Word) : Nat := t.toNat / 8

/-- The tag lengths that use sub-block selection (R96 step 1). -/
def shortTag (t : Word) : Bool := t == 32#32 || t == 64#32

/-- `LEN` in 1 to 1072, compared over all 32 bits (R16, R77). -/
def lenLegal (n : Word) : Bool := decide (1 ≤ n.toNat ∧ n.toNat ≤ Config.obufBytes)

/-- `NONCE_LEN` is legal for the tag length: 8 for the short tags, 1 to 16 for the long ones (R99). -/
def nonceLegal (t n : Word) : Bool :=
  if shortTag t then n == 8#32 else decide (1 ≤ n.toNat ∧ n.toNat ≤ Config.nonceMax)

/-- The nonce operand, `NONCE[0..NONCE_LEN)` (R14, R63). -/
def Block.nonceBytes (b : Block) : List Byte := slice b.nonce.toList 0 b.nonceLen.toNat

end Sys2Proof.Machine
end

