-- ==== Sys2Proof/Machine/Flags.lean ====
section
/-! DEFINITION. The status registers as the host reads them: `STATUS` (R26), `ERR` (R27, R111), `SKN` (R24). -/

namespace Sys2Proof.Machine

/-- The code of a fault (R111). -/
def ErrCode.code : ErrCode → Byte
  | .eNone   => 0#8
  | .eOp     => 1#8
  | .eKey    => 2#8
  | .eTaglen => 3#8
  | .eLen    => 4#8
  | .eNonce  => 5#8
  | .eCipher => 6#8

/-- `STATUS`: `DONE` in bit 0, `FAULT` in bit 1, `KEYV` in bit 2, every other bit zero; `KEYV` is 1 exactly when
`KEYW = 0b1111` (R26). -/
def Block.statusReg (b : Block) : Word :=
  0#29 ++ BitVec.ofBool b.keyLoaded ++ BitVec.ofBool b.fault ++ BitVec.ofBool b.done

/-- `ERR`: the code in bits 7 to 0, every other bit zero (R27). -/
def Block.errReg (b : Block) : Word := 0#24 ++ b.err.code

/-- `SKN`: `L1I` in bits 2:0, `L2I` in 6:4, `L3AI` in 10:8, `L3BI` in 14:12, every other bit zero (R24). -/
def Block.sknReg (b : Block) : Word :=
  0#17 ++ b.l3bi ++ 0#1 ++ b.l3ai ++ 0#1 ++ b.l2i ++ 0#1 ++ b.l1i

end Sys2Proof.Machine
end

