-- ==== Sys2Proof/Machine/Ops.lean ====
section
/-! DEFINITION. The shared operations: reading and writing a register of the window, taking a fault and the return
from it, and the frame of a command. -/

namespace Sys2Proof.Machine

/-! ## Registers of the window -/

/-- What a host read of a register returns (R41, R44, R45); the write-only registers read as 0 (R43 (b)). -/
def Block.readReg (b : Block) : Reg → Word
  | .id       => Config.idValue
  | .cmd      => 0#32
  | .status   => b.statusReg
  | .err      => b.errReg
  | .taglen   => b.taglen
  | .nonceLen => b.nonceLen
  | .len      => b.len
  | .skn      => b.sknReg
  | .streamHi => numWord 2 b.stream 0
  | .streamLo => numWord 2 b.stream 1
  | .olen     => b.olen
  | .padlen   => b.padlen
  | .key _    => 0#32
  | .nonce w  => bufWord b.nonce w
  | .a w      => numWord 4 b.a w
  | .b w      => numWord 4 b.b w
  | .r w      => numWord 4 b.r w
  | .pad w    => bufWord b.pad w
  | .l2kHi j  => numWord 2 (bufRead b.l2k j) 0
  | .l2kLo j  => numWord 2 (bufRead b.l2k j) 1
  | .l3akHi j => numWord 2 (bufRead b.l3ak j) 0
  | .l3akLo j => numWord 2 (bufRead b.l3ak j) 1
  | .l3bk j   => bufRead b.l3bk j
  | .l1k j    => bufRead b.l1k j
  | .obuf w   => bufWord b.obuf w

/-- A host write of a register other than `CMD`: a read-write register takes all 32 bits (R46 (a)), a `KEY` word
also sets its `KEYW` bit (R46 (b)), a read-only register ignores the write (R43 (a)). Accepted whatever `STATUS`
holds (R46). `CMD` stores nothing (R50); `hostWrite` runs its command. -/
def Block.writeReg (b : Block) (reg : Reg) (v : Word) : Block :=
  match reg with
  | .taglen   => { b with taglen := v }
  | .nonceLen => { b with nonceLen := v }
  | .len      => { b with len := v }
  | .streamHi => { b with stream := setNumWord 2 b.stream 0 v }
  | .streamLo => { b with stream := setNumWord 2 b.stream 1 v }
  | .key w    => { b with key := setBufWord b.key w v, keyw := b.keyw ||| (1#4 <<< w.val) }
  | .nonce w  => { b with nonce := setBufWord b.nonce w v }
  | .a w      => { b with a := setNumWord 4 b.a w v }
  | .b w      => { b with b := setNumWord 4 b.b w v }
  | .id | .cmd | .status | .err | .skn | .olen | .padlen | .r _ | .pad _ | .l2kHi _ | .l2kLo _ | .l3akHi _
  | .l3akLo _ | .l3bk _ | .l1k _ | .obuf _ => b

/-! ## Faults and resets -/

/-- `raise Fault(code)`: exactly this and nothing else (R119). -/
def Block.raise (b : Block) (code : ErrCode) : Block := { b with done := false, fault := true, err := code }

def State.raise (s : State) (code : ErrCode) : State := { s with block := s.block.raise code }

/-- The return from a fault by `SRST`: every register to its reset value, then `done` (R105, R120). -/
def State.softReset (s : State) : State := { s with block := { Block.reset with done := true } }

/-- The return from a fault by the reset input: every register to its reset value (R130, R120). -/
def State.hardReset (s : State) : State := { s with block := Block.reset }

/-! ## The frame of a command -/

/-- A command other than `SRST` is ignored while a fault is recorded: no state changes (R107). -/
def State.unlessFaulted (s : State) (command : Result) : Result :=
  if s.block.fault then .next s else command

/-- A check of a command: the fault where it fails, the rest of the command where it holds. -/
def State.check (s : State) (holds : Bool) (code : ErrCode) (rest : Result) : Result :=
  if holds then rest else .next (s.raise code)

/-- A command that succeeds with the block `b`: `STATUS.DONE <- 1` (R9 `done`, R26). -/
def State.complete (s : State) (b : Block) : State := { s with block := { b with done := true } }

/-- The end of a derivation: its results are written and it is done; or a request answered `CipherFail` and the
command faults `E_CIPHER` with nothing written (R117, R119); or a request is never answered and the command
never ends (R136). The requests are seen at the port either way (R53). -/
def State.conclude {α : Type} (s : State) (run : PortRun α) (write : α → Block → Block) : Result :=
  match run.result with
  | .ok x => .next { s.complete (write x s.block) with requests := s.requests ++ run.requests }
  | .error .fail => .next { s.raise .eCipher with requests := s.requests ++ run.requests }
  | .error .silent => .fault .cipherHang

end Sys2Proof.Machine
end

