-- ==== Sys2Proof/Machine/Kdf.lean ====
section
/-! DEFINITION. The key derivation function and the command `KDF` (41_kdf). -/

namespace Sys2Proof.Machine

/-- The cipher input of derived block `i`: `enc64(idx) || enc64(i)` (R75). -/
def kdfInput (idx : DWord) (i : Nat) : Bytes16 := zeroPadded 16 (enc 8 idx.toNat ++ enc 8 i)

/-- The number of blocks generated for `n` bytes, one extra even on exact multiples (R76, 90_conflicts C1). -/
def kdfBlocks (n : Nat) : Nat := n / Config.blockLen + 1

/-- The cipher inputs of a derivation of `n` bytes: the counter starts at 1 (R76). -/
def kdfInputs (idx : DWord) (n : Nat) : List Bytes16 := (List.range (kdfBlocks n)).map fun i => kdfInput idx (i + 1)

/-- `KDF(K, idx, n)`: the blocks in counter order, joined and truncated to `n` bytes (R76). -/
def kdf (E : Cipher) (k : Bytes16) (idx : DWord) (n : Nat) : PortRun (List Byte) :=
  (askAll E k (kdfInputs idx n)).map fun acc => acc.take n

/-- The stream into `OBUF`, the rest of it zero, and its length into `OLEN` (R77). -/
def writeObuf (stream : List Byte) (b : Block) : Block := { b with obuf := zeroPadded 1072 stream, olen := b.len }

/-- `KDF` for a responder `E`: `E_LEN`, then `E_KEY`, then the derivation (R77). -/
def kdfCommand (E : Cipher) (s : State) : Result :=
  s.check (lenLegal s.block.len) .eLen <|
  s.check s.block.keyLoaded .eKey <|
  s.conclude (kdf E s.block.key s.block.stream s.block.len.toNat) writeObuf

/-- `KDF` (R77). -/
def execKdf (s : State) : Result := s.unlessFaulted (kdfCommand s.cipher s)

end Sys2Proof.Machine
end

