-- ==== Sys2Proof/Machine/Mulmod.lean ====
section
/-! DEFINITION. The prime-field multiplier: `MULMOD` (40_mulmod). -/

namespace Sys2Proof.Machine

/-- `(a * b) mod P` over the exact product, for every 128-bit operand (R70, R71). -/
def mulmod (a b : QWord) : QWord := BitVec.ofNat 128 (a.toNat * b.toNat % Config.P)

/-- The reduction by folding, one exact realisation of the same remainder (R73). -/
def foldMod (x : Nat) : Nat :=
  let y := 159 * (x / 2 ^ 128) + x % 2 ^ 128
  let z := 159 * (y / 2 ^ 128) + y % 2 ^ 128
  if Config.P ≤ z then z - Config.P else z

/-- `MULMOD` (R70). -/
def execMulmod (s : State) : Result :=
  s.unlessFaulted (.next (s.complete { s.block with r := mulmod s.block.a s.block.b }))

end Sys2Proof.Machine
end

