-- ==== Sys2Proof/Machine/Pad.lean ====
section
/-! DEFINITION. The nonce-to-pad conversion: `DPAD` (43_pad). -/

namespace Sys2Proof.Machine

/-- `divisor = 16 div L` (R96 step 1). -/
def padDivisor (t : Word) : Nat := 16 / tagBytes t

/-- The sub-index: the low bits of a short tag's nonce, 0 for a long tag (R96 step 1). -/
def subIndex (t : Word) (nonce : List Byte) : Nat := if shortTag t then be nonce % padDivisor t else 0

/-- The working nonce: for a short tag the nonce with the sub-index cleared, re-encoded in 8 bytes; for a long
tag the nonce itself (R96 step 1). -/
def workNonce (t : Word) (nonce : List Byte) : List Byte :=
  if shortTag t then enc 8 (be nonce ^^^ subIndex t nonce) else nonce

/-- The block encrypted: the working nonce with zeros on the right (R96 step 2, R101). -/
def paddedNonce (t : Word) (nonce : List Byte) : Bytes16 := zeroPadded 16 (workNonce t nonce)

/-- The slice of the output block: `L` bytes at offset `subIndex * L` (R96 step 4, R100). -/
def padSlice (t : Word) (nonce : List Byte) (tt : Bytes16) : List Byte :=
  slice tt.toList (subIndex t nonce * tagBytes t) (tagBytes t)

/-- The output block `tt` of R96: the pad key `k2 = KDF(K, 0, 16)`, then one request under it (R96 step 3). -/
def padBlock (E : Cipher) (k : Bytes16) (t : Word) (nonce : List Byte) : PortRun Bytes16 :=
  (kdf E k Config.idxPad Config.padKeyLen).andThen fun k2 => ask E (zeroPadded 16 k2) (paddedNonce t nonce)

/-- `PADFN(K, nonce, t)` (R96). -/
def padFn (E : Cipher) (k : Bytes16) (t : Word) (nonce : List Byte) : PortRun (List Byte) :=
  (padBlock E k t nonce).map (padSlice t nonce)

/-- The pad into `PAD`, the rest of it zero, and its length into `PADLEN` (R97). -/
def writePad (p : List Byte) (b : Block) : Block :=
  { b with pad := zeroPadded 16 p, padlen := BitVec.ofNat 32 (tagBytes b.taglen) }

/-- `DPAD` for a responder `E`: `E_TAGLEN`, `E_NONCE`, `E_KEY`, then the derivation (R97). -/
def dpadCommand (E : Cipher) (s : State) : Result :=
  s.check (tagLegal s.block.taglen) .eTaglen <|
  s.check (nonceLegal s.block.taglen s.block.nonceLen) .eNonce <|
  s.check s.block.keyLoaded .eKey <|
  s.conclude (padFn E s.block.key s.block.taglen s.block.nonceBytes) writePad

/-- `DPAD` (R97). -/
def execDpad (s : State) : Result := s.unlessFaulted (dpadCommand s.cipher s)

end Sys2Proof.Machine
end

