-- ==== Sys2Proof/Machine/Subkeys.lean ====
section
/-! DEFINITION. The subkey derivation engine: `DSUB1`, `DSUB2`, `DSUB3A`, `DSUB3B`, `DSUB` (42_subkeys). -/

namespace Sys2Proof.Machine

/-! ## The number of valid entries of a bank (R20 to R24) -/

def l1Valid (iters : Nat) : Nat := Config.l1Words iters
def l2Valid (iters : Nat) : Nat := 3 * iters
def l3aValid (iters : Nat) : Nat := 8 * iters
def l3bValid (iters : Nat) : Nat := iters

/-! ## One entry from the stream -/

/-- Entry `j` of layer 1: the big-endian word, as derived (R84). -/
def l1Entry (stream : List Byte) (j : Nat) : Word := be32At stream (4 * j)

/-- Entry `j` of layer 2: the big-endian integer under the mask (R85). -/
def l2Entry (stream : List Byte) (j : Nat) : DWord := be64At stream (8 * j) &&& Config.l2Mask

/-- Entry `j` of layer 3a: the remainder of the whole 64-bit integer modulo `2^36 - 5` (R86). -/
def l3aEntry (stream : List Byte) (j : Nat) : DWord :=
  BitVec.ofNat 64 ((be64At stream (8 * j)).toNat % Config.P36)

/-- Entry `j` of layer 3b: the big-endian word, as derived (R87). -/
def l3bEntry (stream : List Byte) (j : Nat) : Word := be32At stream (4 * j)

/-! ## A bank and its `SKN` field -/

/-- A bank whose first `valid` entries come from the stream and whose others are zero (R84 to R87). -/
def bank {w : Nat} (n valid : Nat) (entry : Nat → BitVec w) : Buf (BitVec w) n :=
  bufOf n fun j => if j < valid then entry j else 0#w

def writeL1 (iters : Nat) (stream : List Byte) (b : Block) : Block :=
  { b with l1k := bank 268 (l1Valid iters) (l1Entry stream), l1i := BitVec.ofNat 3 iters }

def writeL2 (iters : Nat) (stream : List Byte) (b : Block) : Block :=
  { b with l2k := bank 12 (l2Valid iters) (l2Entry stream), l2i := BitVec.ofNat 3 iters }

def writeL3a (iters : Nat) (stream : List Byte) (b : Block) : Block :=
  { b with l3ak := bank 32 (l3aValid iters) (l3aEntry stream), l3ai := BitVec.ofNat 3 iters }

def writeL3b (iters : Nat) (stream : List Byte) (b : Block) : Block :=
  { b with l3bk := bank 4 (l3bValid iters) (l3bEntry stream), l3bi := BitVec.ofNat 3 iters }

/-! ## The commands -/

/-- Variant decode and key check, common to the five commands: `E_TAGLEN`, then `E_KEY` (R83). -/
def State.variantChecked (s : State) (rest : Nat → Result) : Result :=
  s.check (tagLegal s.block.taglen) .eTaglen <| s.check s.block.keyLoaded .eKey <| rest (iters s.block.taglen)

/-- `DSUB1` for a responder `E` (R84). -/
def dsub1Command (E : Cipher) (s : State) : Result :=
  s.variantChecked fun i => s.conclude (kdf E s.block.key Config.idxL1 (Config.l1Bytes i)) (writeL1 i)

/-- `DSUB2` for a responder `E` (R85). -/
def dsub2Command (E : Cipher) (s : State) : Result :=
  s.variantChecked fun i => s.conclude (kdf E s.block.key Config.idxL2 (Config.l2Bytes i)) (writeL2 i)

/-- `DSUB3A` for a responder `E` (R86). -/
def dsub3aCommand (E : Cipher) (s : State) : Result :=
  s.variantChecked fun i => s.conclude (kdf E s.block.key Config.idxL3a (Config.l3aBytes i)) (writeL3a i)

/-- `DSUB3B` for a responder `E` (R87). -/
def dsub3bCommand (E : Cipher) (s : State) : Result :=
  s.variantChecked fun i => s.conclude (kdf E s.block.key Config.idxL3b (Config.l3bBytes i)) (writeL3b i)

/-- The four streams of a subkey set. -/
structure SubkeyStreams where
  l1  : List Byte
  l2  : List Byte
  l3a : List Byte
  l3b : List Byte

/-- The four derivations of `DSUB`, in layer order (R88). -/
def subkeyStreams (E : Cipher) (k : Bytes16) (i : Nat) : PortRun SubkeyStreams :=
  (kdf E k Config.idxL1 (Config.l1Bytes i)).andThen fun s1 =>
  (kdf E k Config.idxL2 (Config.l2Bytes i)).andThen fun s2 =>
  (kdf E k Config.idxL3a (Config.l3aBytes i)).andThen fun s3 =>
  (kdf E k Config.idxL3b (Config.l3bBytes i)).map fun s4 => ⟨s1, s2, s3, s4⟩

def writeSubkeys (iters : Nat) (st : SubkeyStreams) (b : Block) : Block :=
  writeL3b iters st.l3b (writeL3a iters st.l3a (writeL2 iters st.l2 (writeL1 iters st.l1 b)))

/-- `DSUB` for a responder `E`: all four banks or none (R88). -/
def dsubCommand (E : Cipher) (s : State) : Result :=
  s.variantChecked fun i => s.conclude (subkeyStreams E s.block.key i) (writeSubkeys i)

/-- `DSUB1` (R84). -/
def execDsub1 (s : State) : Result := s.unlessFaulted (dsub1Command s.cipher s)

/-- `DSUB2` (R85). -/
def execDsub2 (s : State) : Result := s.unlessFaulted (dsub2Command s.cipher s)

/-- `DSUB3A` (R86). -/
def execDsub3a (s : State) : Result := s.unlessFaulted (dsub3aCommand s.cipher s)

/-- `DSUB3B` (R87). -/
def execDsub3b (s : State) : Result := s.unlessFaulted (dsub3bCommand s.cipher s)

/-- `DSUB` (R88). -/
def execDsub (s : State) : Result := s.unlessFaulted (dsubCommand s.cipher s)

end Sys2Proof.Machine
end

