-- ==== Sys2Proof/Machine/System.lean ====
section
/-! DEFINITION. The system command `SRST` and illegal command words (44_system). -/

namespace Sys2Proof.Machine

/-- `SRST`, the one command that runs while a fault is recorded (R105). -/
def execSrst (s : State) : Result := .next s.softReset

/-- An illegal command word faults `E_OP`; it is ignored while a fault is recorded (R106, R107). -/
def illegalWord (s : State) : Result := s.unlessFaulted (.next (s.raise .eOp))

end Sys2Proof.Machine
end

