-- ==== Sys2Proof/Machine/Dispatch.lean ====
section
/-! DEFINITION. One arm for each command (R61). -/

namespace Sys2Proof.Machine

def exec (i : Instr) (s : State) : Host.Outcome State Fault Refusal :=
  match i with
  | .mulmod => Sys2Proof.Machine.execMulmod s
  | .kdf => Sys2Proof.Machine.execKdf s
  | .dsub1 => Sys2Proof.Machine.execDsub1 s
  | .dsub2 => Sys2Proof.Machine.execDsub2 s
  | .dsub3a => Sys2Proof.Machine.execDsub3a s
  | .dsub3b => Sys2Proof.Machine.execDsub3b s
  | .dsub => Sys2Proof.Machine.execDsub s
  | .dpad => Sys2Proof.Machine.execDpad s
  | .srst => Sys2Proof.Machine.execSrst s

end Sys2Proof.Machine
end

