-- ==== Sys2Proof/WellFormed.lean ====
section
/-! DEFINITION. Which terms of the syntax are well formed. -/

namespace Sys2Proof

/-- Every command is well formed: the format has no operand field to check (R60, R63). -/
def Instr.wellFormed : Instr → Bool
  | .mulmod | .kdf | .dsub1 | .dsub2 | .dsub3a | .dsub3b | .dsub | .dpad | .srst => true

/-- The only access the window defines: width exactly 4 bytes, at a multiple of 4, inside the window
(R40, R42). -/
def accessWellFormed (off width : Nat) : Bool :=
  width == 4 && off % 4 == 0 && decide (off < Config.window)

def HostInput.wellFormed : HostInput → Bool
  | .read off width => accessWellFormed off width
  | .write off width _ => accessWellFormed off width
  | .rst => true

/-- `LDNONCE` takes 1 to 16 bytes (R65). -/
def ScriptLine.wellFormed : ScriptLine → Bool
  | .ldnonce bytes => decide (1 ≤ bytes.length ∧ bytes.length ≤ Config.nonceMax)
  | .wr _ _ | .rd _ | .command _ | .cmd _ | .ldkey _ | .ld128 _ _ | .ld64 _ | .rd128 | .rd64 _ | .check => true

end Sys2Proof
end

