-- ==== Sys2Proof/Machine/HostPort.lean ====
section
/-! DEFINITION. The host port: one access is one step (R29, R47, R48). -/

namespace Sys2Proof.Machine

/-- The accesses that have a meaning: 4 bytes wide and aligned (R42), inside the window (R40), at a mapped
offset (R43 (c)). Every other access is refused, by name; the order of these checks is log entry 8. -/
def State.atReg (off width : Nat) (k : Reg → Result) : Result :=
  if width ≠ 4 ∨ off % 4 ≠ 0 then .refused (.undefinedAccess off width)
  else if Config.window ≤ off then .refused (.outsideWindow off)
  else match regAt off with
    | none => .refused (.unmappedOffset off)
    | some reg => k reg

/-- `MemRead(off, 4)`: the host gets the register's value and nothing in the block changes (R45). -/
def hostRead (off width : Nat) (s : State) : Result :=
  State.atReg off width fun reg => .next { s with replies := s.replies ++ [s.block.readReg reg] }

/-- A `CMD` write: the command runs to completion, dispatched by the whole word (R46 (c), R61, R106). -/
def runCommand (v : Word) (s : State) : Result :=
  match decode v with
  | .instr i => exec i s
  | .illegal _ => illegalWord s

/-- `MemWrite(off, 4, v)` (R46). -/
def hostWrite (off width : Nat) (v : Word) (s : State) : Result :=
  State.atReg off width fun reg =>
    if reg = .cmd then runCommand v s else .next { s with block := s.block.writeReg reg v }

/-- One input, already taken from the queue. -/
def perform (input : HostInput) (s : State) : Result :=
  match input with
  | .read off width => hostRead off width s
  | .write off width v => hostWrite off width v s
  | .rst => .next s.hardReset

/-- The oldest pending input is performed; with none pending the block is idle and holds all state (R48, R125). -/
def nextInput (s : State) : Result :=
  match s.accesses with
  | [] => .next s
  | input :: rest => perform input { s with accesses := rest }

/-- `s` with the host about to write `v` to `CMD`. -/
def withCommand (s : State) (v : Word) : State :=
  { s with accesses := .write (offset .cmd) 4 v :: s.accesses }

end Sys2Proof.Machine
end

