-- ==== Sys2Proof/Machine/Step.lean ====
section
/-! DEFINITION. One step: one host access (R29). -/

namespace Sys2Proof.Machine

/-- One step of the machine (R29). -/
def step (s : State) : Host.Outcome State Fault Refusal := nextInput s

/-- `s` with a `CMD` write of the table row's word as the oldest pending input: the block fetches nothing, the
host writes the word (R2, R50; log entry 10). -/
def State.withFetchWord (s : State) (nbits w : Nat) : State :=
  withCommand s (BitVec.ofNat 32 (tableWord nbits w))

end Sys2Proof.Machine
end

