-- ==== Sys2Proof/Machine/Script.lean ====
section
/-! DEFINITION. Host scripts: a line or pseudo-instruction as the host accesses it stands for (R65). -/

namespace Sys2Proof.Machine

def readOf (reg : Reg) : HostInput := .read (offset reg) 4

def writeOf (reg : Reg) (v : Word) : HostInput := .write (offset reg) 4 v

def fourWords : List (Fin 4) := [0, 1, 2, 3]

/-- The registers of a wide operand (R65 `LD128`). -/
def wideReg : WideOperand → Fin 4 → Reg
  | .a, w => .a w
  | .b, w => .b w

/-- The two words of a 64-bit bank entry, the high word first (R65 `RD64`). -/
def entryRegs : WideEntry → List Reg
  | .l2k j => [.l2kHi j, .l2kLo j]
  | .l3ak j => [.l3akHi j, .l3akLo j]

/-- The accesses of a script line (R65). -/
def expand : ScriptLine → List HostInput
  | .wr reg v => [writeOf reg v]
  | .rd reg => [readOf reg]
  | .command i => [writeOf .cmd (encode i)]
  | .cmd v => [writeOf .cmd v]
  | .ldkey bytes => fourWords.map fun w => writeOf (.key w) (bufWord bytes w)
  | .ldnonce bytes =>
    (fourWords.map fun w => writeOf (.nonce w) (bufWord (zeroPadded 16 bytes) w))
      ++ [writeOf .nonceLen (BitVec.ofNat 32 bytes.length)]
  | .ld128 dst v => fourWords.map fun w => writeOf (wideReg dst w) (numWord 4 v w)
  | .ld64 v => [writeOf .streamHi (numWord 2 v 0), writeOf .streamLo (numWord 2 v 1)]
  | .rd128 => fourWords.map fun w => readOf (.r w)
  | .rd64 src => (entryRegs src).map readOf
  | .check => [readOf .status]

/-- What `CHECK` expects of the word it read: `STATUS[1:0] = 0b01` (R65). -/
def checkPasses (status : Word) : Bool := status.extractLsb' 0 2 == 0b01#2

/-- The number whose 32-bit words, the most significant first, are `ws`: the values of `RD128` and `RD64`
(R65). -/
def wordsValue (ws : List Word) : Nat := ws.foldl (fun acc w => acc * 2 ^ 32 + w.toNat) 0

end Sys2Proof.Machine
end

