-- ==== Sys2Proof/Safety.lean ====
section
/-! DEFINITION. The terms of the statements: what a command needs before it can succeed, what it asks the cipher,
the bytes a derived stream has, what a command reads and writes, the good end of a run and the invariants of the
block. They are written from the rules, not from the meanings. -/

namespace Sys2Proof.Machine

/-! ## Derived streams, byte by byte (R75, R76) -/

/-- "Byte `j` of the stream is byte `j mod 16` of `KDFBLK(K, idx, j div 16 + 1)`" (R76). -/
def streamByte (k : Bytes16) (idx : DWord) (j : Nat) : Byte :=
  bufRead (encrypt k (kdfInput idx (j / 16 + 1))) (j % 16)

/-- The big-endian 32-bit integer in stream bytes `off` to `off+3` (R8). -/
def streamWord (k : Bytes16) (idx : DWord) (off : Nat) : Word :=
  streamByte k idx off ++ streamByte k idx (off + 1) ++ streamByte k idx (off + 2) ++ streamByte k idx (off + 3)

/-- The big-endian 64-bit integer in stream bytes `off` to `off+7` (R8). -/
def streamDWord (k : Bytes16) (idx : DWord) (off : Nat) : DWord :=
  streamWord k idx off ++ streamWord k idx (off + 4)

/-- The pad key `k2 = KDF(K, 0, 16)` (R96 step 3). -/
def padKey (k : Bytes16) : Bytes16 := bufOf 16 (streamByte k 0#64)

/-- The short-tag block to encrypt: the 8 nonce bytes with the low bits of the last one cleared, then zeros;
"only the last byte of the nonce can change, and only its low 2 bits (`t = 32`) or low bit (`t = 64`)" (R96). -/
def shortPadInput (nonce : Bytes16) (lowBits : Byte) : Bytes16 :=
  bufOf 16 fun j => if j < 7 then bufRead nonce j else if j = 7 then bufRead nonce 7 &&& ~~~lowBits else 0#8

/-- The long-tag block to encrypt: the nonce bytes, then zeros (R96 step 2, R101). -/
def longPadInput (nonce : Bytes16) (n : Nat) : Bytes16 := bufOf 16 fun j => if j < n then bufRead nonce j else 0#8

/-- The block that `DPAD` encrypts under the pad key (R96). -/
def padInput (b : Block) : Bytes16 :=
  if b.taglen = 32#32 then shortPadInput b.nonce 3#8
  else if b.taglen = 64#32 then shortPadInput b.nonce 1#8
  else longPadInput b.nonce b.nonceLen.toNat

/-- The sub-index of `DPAD`: the low 2 bits or the low bit of the last nonce byte, 0 for a long tag (R96). -/
def padSubIndex (b : Block) : Nat :=
  if b.taglen = 32#32 then (bufRead b.nonce 7).toNat % 4
  else if b.taglen = 64#32 then (bufRead b.nonce 7).toNat % 2
  else 0

/-! ## The requests of a command (R53) -/

/-- `n div 16 + 1` requests under `K`, in counter order (R53, R76). -/
def derivationRequests (k : Bytes16) (idx : DWord) (n : Nat) : List CipherRequest :=
  (List.range (n / 16 + 1)).map fun i => ⟨k, kdfInput idx (i + 1)⟩

/-- The requests of a command that runs to its end, in order (R53). -/
def commandRequests (i : Instr) (b : Block) : List CipherRequest :=
  let n := b.taglen.toNat / 32
  let layer1 := derivationRequests b.key 1#64 (4 * (256 + (n - 1) * 4))
  let layer2 := derivationRequests b.key 2#64 (n * 24)
  let layer3a := derivationRequests b.key 3#64 (n * 64)
  let layer3b := derivationRequests b.key 4#64 (n * 4)
  match i with
  | .mulmod | .srst => []
  | .kdf => derivationRequests b.key b.stream b.len.toNat
  | .dsub1 => layer1
  | .dsub2 => layer2
  | .dsub3a => layer3a
  | .dsub3b => layer3b
  | .dsub => layer1 ++ layer2 ++ layer3a ++ layer3b
  | .dpad => derivationRequests b.key 0#64 16 ++ [⟨padKey b.key, padInput b⟩]

/-- The responder answers this request with a block. -/
def State.answered (s : State) (q : CipherRequest) : Prop := s.lapses.lookup q = none

/-- Every request of the command is answered with a block. -/
def State.portAnswers (s : State) (i : Instr) : Prop := ∀ q ∈ commandRequests i s.block, s.answered q

/-- The requests `sent` are answered with a block and the next request `q` of the command is the first to lapse. -/
def State.portLapses (s : State) (i : Instr) (sent : List CipherRequest) (q : CipherRequest) (lapse : CipherLapse) :
    Prop :=
  (∃ rest, commandRequests i s.block = sent ++ q :: rest) ∧ (∀ p ∈ sent, s.answered p) ∧
    s.lapses.lookup q = some lapse

/-! ## What a command needs (R132) and the first check that fails (R118) -/

def tagIsLegal (t : Word) : Prop := t = 32#32 ∨ t = 64#32 ∨ t = 96#32 ∨ t = 128#32

def nonceIsLegal (t n : Word) : Prop :=
  (t = 32#32 ∨ t = 64#32) ∧ n = 8#32 ∨ (t = 96#32 ∨ t = 128#32) ∧ 1 ≤ n.toNat ∧ n.toNat ≤ 16

def keyIsLoaded (b : Block) : Prop := b.keyw = 0b1111#4

def lenIsLegal (n : Word) : Prop := 1 ≤ n.toNat ∧ n.toNat ≤ 1072

/-- What the host must have written before a command can succeed (R132). -/
def Block.ready (i : Instr) (b : Block) : Prop :=
  match i with
  | .mulmod | .srst => True
  | .kdf => keyIsLoaded b ∧ lenIsLegal b.len
  | .dsub1 | .dsub2 | .dsub3a | .dsub3b | .dsub => keyIsLoaded b ∧ tagIsLegal b.taglen
  | .dpad => keyIsLoaded b ∧ tagIsLegal b.taglen ∧ nonceIsLegal b.taglen b.nonceLen

/-- `code` is the fault of the first register check that fails, in the order `E_TAGLEN` or `E_LEN`, `E_NONCE`,
`E_KEY` (R118). -/
def Block.firstFault (i : Instr) (b : Block) (code : ErrCode) : Prop :=
  match i with
  | .mulmod | .srst => False
  | .kdf => ¬ lenIsLegal b.len ∧ code = .eLen ∨ lenIsLegal b.len ∧ ¬ keyIsLoaded b ∧ code = .eKey
  | .dsub1 | .dsub2 | .dsub3a | .dsub3b | .dsub =>
    ¬ tagIsLegal b.taglen ∧ code = .eTaglen ∨ tagIsLegal b.taglen ∧ ¬ keyIsLoaded b ∧ code = .eKey
  | .dpad =>
    ¬ tagIsLegal b.taglen ∧ code = .eTaglen ∨
    tagIsLegal b.taglen ∧ ¬ nonceIsLegal b.taglen b.nonceLen ∧ code = .eNonce ∨
    tagIsLegal b.taglen ∧ nonceIsLegal b.taglen b.nonceLen ∧ ¬ keyIsLoaded b ∧ code = .eKey

/-! ## What a command reads and writes (R33) -/

/-- The two blocks agree on what the command reads (R33). -/
def readsAgree (i : Instr) (x y : Block) : Prop :=
  match i with
  | .mulmod => x.a = y.a ∧ x.b = y.b
  | .kdf => x.key = y.key ∧ x.keyw = y.keyw ∧ x.stream = y.stream ∧ x.len = y.len
  | .dsub1 | .dsub2 | .dsub3a | .dsub3b | .dsub => x.key = y.key ∧ x.keyw = y.keyw ∧ x.taglen = y.taglen
  | .dpad => x.key = y.key ∧ x.keyw = y.keyw ∧ x.taglen = y.taglen ∧ x.nonce = y.nonce ∧ x.nonceLen = y.nonceLen
  | .srst => True

/-- `x` with the results of the command taken from `y` (R33); `STATUS.DONE` is not among them. -/
def withResults (i : Instr) (x y : Block) : Block :=
  match i with
  | .mulmod => { x with r := y.r }
  | .kdf => { x with obuf := y.obuf, olen := y.olen }
  | .dsub1 => { x with l1k := y.l1k, l1i := y.l1i }
  | .dsub2 => { x with l2k := y.l2k, l2i := y.l2i }
  | .dsub3a => { x with l3ak := y.l3ak, l3ai := y.l3ai }
  | .dsub3b => { x with l3bk := y.l3bk, l3bi := y.l3bi }
  | .dsub => { x with l1k := y.l1k, l1i := y.l1i, l2k := y.l2k, l2i := y.l2i,
                      l3ak := y.l3ak, l3ai := y.l3ai, l3bk := y.l3bk, l3bi := y.l3bi }
  | .dpad => { x with pad := y.pad, padlen := y.padlen }
  | .srst => y

/-- The input registers that the host writes (R11). -/
def sameInputs (x y : Block) : Prop :=
  x.key = y.key ∧ x.keyw = y.keyw ∧ x.taglen = y.taglen ∧ x.nonce = y.nonce ∧ x.nonceLen = y.nonceLen ∧
  x.stream = y.stream ∧ x.len = y.len ∧ x.a = y.a ∧ x.b = y.b

/-- The result registers, which only commands and resets write (R11). -/
def sameResults (x y : Block) : Prop :=
  x.r = y.r ∧ x.obuf = y.obuf ∧ x.olen = y.olen ∧ x.l1k = y.l1k ∧ x.l2k = y.l2k ∧ x.l3ak = y.l3ak ∧
  x.l3bk = y.l3bk ∧ x.l1i = y.l1i ∧ x.l2i = y.l2i ∧ x.l3ai = y.l3ai ∧ x.l3bi = y.l3bi ∧ x.pad = y.pad ∧
  x.padlen = y.padlen ∧ x.done = y.done ∧ x.fault = y.fault ∧ x.err = y.err

/-- The two inputs that clear a recorded fault: `RST` and the `SRST` command (R120). -/
def isReset (input : HostInput) : Prop :=
  input = .rst ∨ input = .write 0x0004 4 0x0000000F#32

/-! ## What a command leaves, rule by rule -/

/-- `raise Fault(code)` spelled out (R119). -/
def faultEntry (b : Block) (code : ErrCode) : Block := { b with done := false, fault := true, err := code }

/-- The faults of a command that is executed in `s`: the first register check that fails, with no request, or the
first request that answers `CipherFail`, with no result written (R117, R118, R119). -/
def faultsAsRuled (i : Instr) (s : State) : Prop :=
  (∀ code, s.block.firstFault i code → exec i s = .next { s with block := faultEntry s.block code }) ∧
  (∀ sent q, s.block.ready i → s.portLapses i sent q .fail →
    exec i s = .next { s with block := faultEntry s.block .eCipher, requests := s.requests ++ (sent ++ [q]) })

/-- The layer-1 bank of a variant (R20, R84). -/
def layer1Derived (k : Bytes16) (n : Nat) (b : Block) : Prop :=
  (∀ j, j < 256 + (n - 1) * 4 → bufRead b.l1k j = streamWord k 1#64 (4 * j)) ∧
  (∀ j, 256 + (n - 1) * 4 ≤ j → j < 268 → bufRead b.l1k j = 0#32) ∧ b.l1i.toNat = n

/-- The layer-2 bank of a variant (R21, R85). -/
def layer2Derived (k : Bytes16) (n : Nat) (b : Block) : Prop :=
  (∀ j, j < 3 * n → bufRead b.l2k j = streamDWord k 2#64 (8 * j) &&& 0x01FFFFFF01FFFFFF#64) ∧
  (∀ j, 3 * n ≤ j → j < 12 → bufRead b.l2k j = 0#64) ∧ b.l2i.toNat = n

/-- The layer-3a bank of a variant (R22, R86). -/
def layer3aDerived (k : Bytes16) (n : Nat) (b : Block) : Prop :=
  (∀ j, j < 8 * n → (bufRead b.l3ak j).toNat = (streamDWord k 3#64 (8 * j)).toNat % (2 ^ 36 - 5)) ∧
  (∀ j, 8 * n ≤ j → j < 32 → bufRead b.l3ak j = 0#64) ∧ b.l3ai.toNat = n

/-- The layer-3b bank of a variant (R23, R87). -/
def layer3bDerived (k : Bytes16) (n : Nat) (b : Block) : Prop :=
  (∀ j, j < n → bufRead b.l3bk j = streamWord k 4#64 (4 * j)) ∧
  (∀ j, n ≤ j → j < 4 → bufRead b.l3bk j = 0#32) ∧ b.l3bi.toNat = n

/-- The number `be64(NONCE[0..8))` of a short tag's nonce (R96 step 1). -/
def nonce64 (b : Block) : Nat := be (slice b.nonce.toList 0 8)

/-- Every register, buffer and bank holds the value of R32, `STATUS.DONE` as given. -/
def resetValues (b : Block) (done : Bool) : Prop :=
  (∀ i, i < 16 → bufRead b.key i = 0#8) ∧ b.keyw = 0b0000#4 ∧ b.taglen = 0#32 ∧
  (∀ i, i < 16 → bufRead b.nonce i = 0#8) ∧ b.nonceLen = 0#32 ∧ b.stream = 0#64 ∧ b.len = 0#32 ∧
  b.a = 0#128 ∧ b.b = 0#128 ∧ b.r = 0#128 ∧ (∀ i, i < 1072 → bufRead b.obuf i = 0#8) ∧ b.olen = 0#32 ∧
  (∀ j, j < 268 → bufRead b.l1k j = 0#32) ∧ (∀ j, j < 12 → bufRead b.l2k j = 0#64) ∧
  (∀ j, j < 32 → bufRead b.l3ak j = 0#64) ∧ (∀ j, j < 4 → bufRead b.l3bk j = 0#32) ∧ b.readReg .skn = 0#32 ∧
  (∀ i, i < 16 → bufRead b.pad i = 0#8) ∧ b.padlen = 0#32 ∧ b.done = done ∧ b.fault = false ∧
  b.readReg .status = (if done then 0x00000001#32 else 0x00000000#32) ∧ b.readReg .err = 0#32 ∧
  b.readReg .id = 0x4C554301#32

/-! ## Reads and writes of the window, row by row -/

/-- A host read at `off` returns the given value of the block and changes nothing in it (R41, R45). -/
def readsAs (off : Nat) (value : Block → Nat) : Prop :=
  ∀ s rest, s.accesses = .read off 4 :: rest →
    step s = .next { s with accesses := rest, replies := s.replies ++ [BitVec.ofNat 32 (value s.block)] }

/-- A host write of `v` at `off` changes the block as the relation says, whatever `STATUS` holds (R46). -/
def writesAs (off : Nat) (change : Word → Block → Block → Prop) : Prop :=
  ∀ s rest v, s.accesses = .write off 4 v :: rest →
    ∃ b', step s = .next { s with accesses := rest, block := b' } ∧ change v s.block b'

/-- Word `w` of a byte buffer as R44 (a) writes it. -/
def bufWordNat {n : Nat} (x : Buf Byte n) (w : Nat) : Nat :=
  (bufRead x (4 * w)).toNat * 2 ^ 24 + (bufRead x (4 * w + 1)).toNat * 2 ^ 16 + (bufRead x (4 * w + 2)).toNat * 2 ^ 8 +
    (bufRead x (4 * w + 3)).toNat

/-- Word `w` of a number of `words` words, the most significant first (R44 (b)). -/
def numWordNat (words x w : Nat) : Nat := x / 2 ^ (32 * (words - 1 - w)) % 2 ^ 32

/-- Word `w` of a byte buffer was set to `v`: byte `4w` takes bits 31 to 24, and so on; all other bytes are kept
(R44 (a)). -/
def bufWordSet {n : Nat} (w : Nat) (v : Word) (x x' : Buf Byte n) : Prop :=
  ∀ i, i < n → bufRead x' i = if i / 4 = w then BitVec.ofNat 8 (v.toNat / 2 ^ (24 - 8 * (i % 4))) else bufRead x i

/-- Word `w` of a wide number was set to `v` and all other words are kept (R46 (a)). -/
def numWordSet (words w : Nat) (v : Word) (x x' : Nat) : Prop :=
  ∀ w', w' < words → numWordNat words x' w' = if w' = w then v.toNat else numWordNat words x w'

/-- The offsets of the window at which the map has no register (R41). -/
def unmapped (off : Nat) : Prop :=
  0x0090 ≤ off ∧ off ≤ 0x00FF ∨ 0x0160 ≤ off ∧ off ≤ 0x017F ∨ 0x0290 ≤ off ∧ off ≤ 0x03FF ∨
  0x0830 ≤ off ∧ off ≤ 0x0BFF ∨ 0x1030 ≤ off ∧ off ≤ 0x1FFF

/-! ## Good runs and invariants -/

/-- A good final state: no fault is recorded (R140). -/
def State.good (s : State) : Prop := s.block.fault = false

/-- The flags agree with one another: `DONE` and `FAULT` are never both 1 (R26), and `ERR = 0` exactly when
`FAULT = 0` (R27). -/
structure Block.FlagsAgree (b : Block) : Prop where
  notBoth : ¬ (b.done = true ∧ b.fault = true)
  errIff  : b.err = .eNone ↔ b.fault = false

/-- The results lie in their ranges: `R < P` (R18, R72, R124), no `L2K` bit outside the mask (R90), every `L3AK`
entry below `2^36 - 5` (R91). -/
structure Block.ResultsInRange (b : Block) : Prop where
  product : b.r.toNat < Config.P
  layer2  : ∀ j, j < 12 → bufRead b.l2k j &&& ~~~Config.l2Mask = 0#64
  layer3a : ∀ j, j < 32 → (bufRead b.l3ak j).toNat < Config.P36

/-- The number of valid layer-1 entries for a field of `SKN` (R24). -/
def l1Count (l1i : Nat) : Nat := if l1i = 0 then 0 else Config.l1Words l1i

/-- Every result container is zero past its valid part, and the valid parts have legal sizes (R19 to R25). -/
structure Block.ZeroFilled (b : Block) : Prop where
  olenLe   : b.olen.toNat ≤ Config.obufBytes
  obufZero : ∀ i, i < 1072 → b.olen.toNat ≤ i → bufRead b.obuf i = 0#8
  padLens  : b.padlen = 0#32 ∨ b.padlen = 4#32 ∨ b.padlen = 8#32 ∨ b.padlen = 12#32 ∨ b.padlen = 16#32
  padZero  : ∀ i, i < 16 → b.padlen.toNat ≤ i → bufRead b.pad i = 0#8
  sknLe    : b.l1i.toNat ≤ 4 ∧ b.l2i.toNat ≤ 4 ∧ b.l3ai.toNat ≤ 4 ∧ b.l3bi.toNat ≤ 4
  l1Zero   : ∀ j, j < 268 → l1Count b.l1i.toNat ≤ j → bufRead b.l1k j = 0#32
  l2Zero   : ∀ j, j < 12 → l2Valid b.l2i.toNat ≤ j → bufRead b.l2k j = 0#64
  l3aZero  : ∀ j, j < 32 → l3aValid b.l3ai.toNat ≤ j → bufRead b.l3ak j = 0#64
  l3bZero  : ∀ j, j < 4 → l3bValid b.l3bi.toNat ≤ j → bufRead b.l3bk j = 0#32

end Sys2Proof.Machine
end

