-- ==== Sys2Proof/Certificates/Slice0/Obligations.lean ====
section
/-! DEFINITION. The statements about the machine, from the numbered rules of the spec. Each docstring names the
rule it formalises. -/

open Sys2Proof Sys2Proof.Machine

/-! ## Command words -/

/-- The nine words of the opcode map, written out bit by bit from the format of R60, decode to their commands. -/
def Obligations.TableWordsDecodeToTheirCommands : Prop :=
  decode 0b00000000000000000000000000000001#32 = .instr .mulmod ∧
  decode 0b00000000000000000000000000000010#32 = .instr .kdf ∧
  decode 0b00000000000000000000000000000011#32 = .instr .dsub1 ∧
  decode 0b00000000000000000000000000000100#32 = .instr .dsub2 ∧
  decode 0b00000000000000000000000000000101#32 = .instr .dsub3a ∧
  decode 0b00000000000000000000000000000110#32 = .instr .dsub3b ∧
  decode 0b00000000000000000000000000000111#32 = .instr .dsub ∧
  decode 0b00000000000000000000000000001000#32 = .instr .dpad ∧
  decode 0b00000000000000000000000000001111#32 = .instr .srst

/-- A word decodes to a command exactly when it is that command's own word (R60, R61, R62): encoding then decoding
gives the command back, and no other word does. -/
def Obligations.OnlyItsOwnWordDecodesToACommand : Prop :=
  ∀ (v : Word) (i : Instr), decode v = .instr i ↔ v = encode i

/-- R46 (c), R61: the oldest pending access, a write to `CMD` of a word that decodes to a command, runs that
command on the state with the access taken. -/
def Obligations.StepRunsTheDecodedCommand : Prop :=
  ∀ (s : State) (v : Word) (i : Instr) (rest : List HostInput),
    s.accesses = .write 0x0004 4 v :: rest → decode v = .instr i → step s = exec i { s with accesses := rest }

/-- R106, R112: a word outside the opcode map, while no fault is recorded, faults `E_OP`; nothing else changes and
no request is issued. -/
def Obligations.IllegalWordFaultsEop : Prop :=
  ∀ (s : State) (v : Word) (rest : List HostInput),
    s.accesses = .write 0x0004 4 v :: rest →
    v ∉ [0x00000001#32, 0x00000002#32, 0x00000003#32, 0x00000004#32, 0x00000005#32, 0x00000006#32, 0x00000007#32,
      0x00000008#32, 0x0000000F#32] →
    s.block.fault = false →
    step s = .next { s with accesses := rest,
                            block := { s.block with done := false, fault := true, err := .eOp } } ∧
    ErrCode.eOp.code = 1#8

/-- R107: while a fault is recorded every command word but that of `SRST`, legal or not, is ignored with no state
change and no request; register writes are still accepted; where the flags agree (R26), `STATUS` reads `DONE = 0`,
`FAULT = 1`. -/
def Obligations.FaultedBlockIgnoresCommands : Prop :=
  ∀ (s : State) (rest : List HostInput), s.block.fault = true →
    (∀ v, v ≠ 0x0000000F#32 → s.accesses = .write 0x0004 4 v :: rest → step s = .next { s with accesses := rest }) ∧
    (∀ reg v, reg ≠ .cmd → s.accesses = .write (offset reg) 4 v :: rest →
      step s = .next { s with accesses := rest, block := s.block.writeReg reg v }) ∧
    (s.block.FlagsAgree → (s.block.readReg .status).extractLsb' 0 2 = 0b10#2)

/-! ## Faults and resets -/

/-- R118, R119: one fault is reported, the first in the order `E_OP`, `E_TAGLEN` or `E_LEN`, `E_NONCE`, `E_KEY`,
`E_CIPHER`; exactly `DONE`, `FAULT` and `ERR` change, and `ERR` reads the code. While a fault is recorded no fault is
raised, and a lapse at the port counts only when every check passed. -/
def Obligations.FirstFailingCheckDecidesTheFault : Prop :=
  (∀ (i : Instr) (s : State),
    (i ≠ .srst → s.block.fault = true → exec i s = .next s) ∧
    (s.block.fault = false →
      (∀ code, s.block.firstFault i code →
        exec i s = .next { s with block := { s.block with done := false, fault := true, err := code } }) ∧
      (∀ t, exec i s = .next t → t.block.fault = true →
        t.block = { s.block with done := false, fault := true, err := t.block.err } ∧
        (t.block.err ≠ .eCipher → s.block.firstFault i t.block.err) ∧ (t.block.err = .eCipher → s.block.ready i)))) ∧
  (∀ (s : State) (v : Word) (why : IllegalWord) (rest : List HostInput),
    s.accesses = .write 0x0004 4 v :: rest → decode v = .illegal why → s.block.fault = false →
    step s = .next { s with accesses := rest,
                            block := { s.block with done := false, fault := true, err := .eOp } }) ∧
  ∀ (b : Block) (code : ErrCode), ({ b with done := false, fault := true, err := code } : Block).readReg .err =
    0#24 ++ code.code

/-- R117: the first request that answers `CipherFail` makes the running command fault `E_CIPHER`, after which it
issues no request and writes no result; with a responder that answers every request the fault is unreachable. -/
def Obligations.CipherFailFaultsEcipher : Prop :=
  ∀ (i : Instr) (s : State), s.block.fault = false →
    (∀ sent q, s.block.ready i → s.portLapses i sent q .fail →
      exec i s = .next { s with block := { s.block with done := false, fault := true, err := .eCipher },
                                requests := s.requests ++ (sent ++ [q]) }) ∧
    (∀ t, s.lapses = [] → exec i s = .next t → t.block.fault = true → t.block.err ≠ .eCipher)

/-- R136 and U9 as the model renders them (log entry 7): a request that is never answered hangs the command. -/
def Obligations.SilentResponderHangsTheCommand : Prop :=
  ∀ (i : Instr) (s : State) (sent : List CipherRequest) (q : CipherRequest),
    s.block.fault = false → s.block.ready i → s.portLapses i sent q .silent → exec i s = .fault .cipherHang

/-- R120: a recorded fault ends only by a reset, which completes and restores the complete reset state; any other
step leaves `FAULT`, `ERR` and every result as they are. -/
def Obligations.OnlyAResetClearsAFault : Prop :=
  ∀ s : State, s.block.fault = true →
    (∀ rest, s.accesses = .rst :: rest → step s = .next { s with accesses := rest, block := Block.reset }) ∧
    (∀ rest, s.accesses = .write 0x0004 4 0x0000000F#32 :: rest →
      step s = .next { s with accesses := rest, block := { Block.reset with done := true } }) ∧
    (∀ t, step s = .next t → (∀ input rest, s.accesses = input :: rest → ¬ isReset input) →
      sameResults s.block t.block)

/-- R32: after the hardware reset and after a successful `SRST` every piece of state has the value of the table. -/
def Obligations.ResetsLeaveTheTableOfValues : Prop :=
  resetValues State.reset.block false ∧
  (∀ s rest, s.accesses = .rst :: rest →
    ∃ b, step s = .next { s with accesses := rest, block := b } ∧ resetValues b false) ∧
  (∀ s rest, s.accesses = .write 0x0004 4 0x0000000F#32 :: rest →
    ∃ b, step s = .next { s with accesses := rest, block := b } ∧ resetValues b true)

/-- R105: `SRST` puts every register at its reset value and sets `DONE`, whatever `STATUS` holds, issues no request,
cannot fault and is idempotent; `STATUS` then reads `0x00000001`. -/
def Obligations.SrstRestoresTheResetState : Prop :=
  encode .srst = 0x0000000F#32 ∧
  ∀ s : State, ∃ t, exec .srst s = .next t ∧ t = { s with block := { Block.reset with done := true } } ∧
    t.block.readReg .status = 0x00000001#32 ∧ t.block.readReg .err = 0#32 ∧ exec .srst t = .next t

/-! ## The multiplier -/

/-- R70: `MULMOD` leaves `R = (A * B) mod P`, exact, sets `DONE` and changes nothing else; it raises no fault, and is
ignored while one is recorded. -/
def Obligations.MulmodLeavesTheExactResidue : Prop :=
  encode .mulmod = 0x00000001#32 ∧
  ∀ s : State,
    (s.block.fault = true → exec .mulmod s = .next s) ∧
    (s.block.fault = false → ∃ t, exec .mulmod s = .next t ∧
      t.block.r.toNat = s.block.a.toNat * s.block.b.toNat % (2 ^ 128 - 159) ∧
      t = { s with block := { s.block with r := t.block.r, done := true } })

/-- R71: every 128-bit operand is accepted, and an operand acts as its residue. -/
def Obligations.MulmodOperandsActAsTheirResidues : Prop :=
  ∀ s s' : State, s.block.fault = false → s'.block.fault = false →
    s'.block.a.toNat = s.block.a.toNat % (2 ^ 128 - 159) → s'.block.b.toNat = s.block.b.toNat % (2 ^ 128 - 159) →
    ∃ t t', exec .mulmod s = .next t ∧ exec .mulmod s' = .next t' ∧ t.block.r = t'.block.r ∧
      t.block.r.toNat = s.block.a.toNat * s.block.b.toNat % (2 ^ 128 - 159)

/-- R72: the result is the canonical residue; `MULMOD` is commutative, an operand 0 gives 0, `B = 1` gives `A mod P`,
and, `P` being prime, `R = 0` exactly when an operand is 0 or `P`. -/
def Obligations.MulmodIsCanonicalAndCommutative : Prop :=
  ∀ s s' : State, s.block.fault = false → s'.block.fault = false →
    s'.block.a = s.block.b → s'.block.b = s.block.a →
    ∃ t t', exec .mulmod s = .next t ∧ exec .mulmod s' = .next t' ∧
      t.block.r.toNat < 2 ^ 128 - 159 ∧ t'.block.r = t.block.r ∧
      (s.block.b = 1#128 → t.block.r.toNat = s.block.a.toNat % (2 ^ 128 - 159)) ∧
      (t.block.r = 0#128 ↔
        (s.block.a.toNat = 0 ∨ s.block.a.toNat = 2 ^ 128 - 159) ∨ (s.block.b.toNat = 0 ∨ s.block.b.toNat = 2 ^ 128 - 159))

/-- R73: the reduction by folding gives the same remainder for every product of two operands. -/
def Obligations.FoldedReductionEqualsTheRemainder : Prop :=
  ∀ a b : QWord, foldMod (a.toNat * b.toNat) = a.toNat * b.toNat % (2 ^ 128 - 159)

/-! ## The key derivation function -/

/-- R75: the cipher input of block `i` is the stream index and the counter as two 64-bit big-endian integers. -/
def Obligations.CipherInputIsIndexThenCounter : Prop :=
  ∀ (idx : DWord) (i : Nat), i < 2 ^ 64 →
    be (slice (kdfInput idx i).toList 0 8) = idx.toNat ∧ be (slice (kdfInput idx i).toList 8 8) = i

/-- R80: distinct pairs of stream index and counter give distinct cipher inputs, hence distinct output blocks under
any cipher that is injective in the block. -/
def Obligations.DistinctStreamsNeverCollide : Prop :=
  ∀ (E : Bytes16 → Bytes16 → Bytes16) (k : Bytes16), Function.Injective (E k) →
    ∀ (idx idx' : DWord) (i i' : Nat), i < 2 ^ 64 → i' < 2 ^ 64 → (idx, i) ≠ (idx', i') →
      kdfInput idx i ≠ kdfInput idx' i' ∧ E k (kdfInput idx i) ≠ E k (kdfInput idx' i')

/-- R76, R77: `KDF` leaves the stream in `OBUF`, zeros after it, its length in `OLEN`, sets `DONE`, issues
`LEN div 16 + 1` requests in counter order, and changes nothing else; its faults are `E_LEN`, `E_KEY`, `E_CIPHER`. -/
def Obligations.KdfLeavesTheDerivedStream : Prop :=
  encode .kdf = 0x00000002#32 ∧
  ∀ s : State, s.block.fault = false →
    faultsAsRuled .kdf s ∧
    (keyIsLoaded s.block → lenIsLegal s.block.len → s.portAnswers .kdf →
      ∃ t, exec .kdf s = .next t ∧
        (∀ j, j < s.block.len.toNat → bufRead t.block.obuf j = streamByte s.block.key s.block.stream j) ∧
        (∀ j, s.block.len.toNat ≤ j → j < 1072 → bufRead t.block.obuf j = 0#8) ∧
        t.block.olen = s.block.len ∧
        t = { s with block := { s.block with obuf := t.block.obuf, olen := t.block.olen, done := true },
                     requests := s.requests ++
                       derivationRequests s.block.key s.block.stream s.block.len.toNat })

/-- R78, R79: two derivations with one `KEY` and `STREAM` agree on the bytes they share, and leave equal results where
their lengths are equal. -/
def Obligations.KdfIsPrefixConsistent : Prop :=
  ∀ s s' : State, s.block.fault = false → s'.block.fault = false →
    s.block.ready .kdf → s'.block.ready .kdf → s.portAnswers .kdf → s'.portAnswers .kdf →
    s'.block.key = s.block.key → s'.block.stream = s.block.stream → s.block.len.toNat ≤ s'.block.len.toNat →
    ∃ t t', exec .kdf s = .next t ∧ exec .kdf s' = .next t' ∧
      (∀ j, j < s.block.len.toNat → bufRead t'.block.obuf j = bufRead t.block.obuf j) ∧
      (s'.block.len = s.block.len → t'.block.obuf = t.block.obuf ∧ t'.block.olen = t.block.olen)

/-! ## The subkey engine -/

/-- R84: `DSUB1`. -/
def Obligations.Dsub1LeavesTheLayer1Key : Prop :=
  encode .dsub1 = 0x00000003#32 ∧
  ∀ s : State, s.block.fault = false →
    faultsAsRuled .dsub1 s ∧
    (keyIsLoaded s.block → tagIsLegal s.block.taglen → s.portAnswers .dsub1 →
      ∃ t, exec .dsub1 s = .next t ∧ layer1Derived s.block.key (s.block.taglen.toNat / 32) t.block ∧
        t = { s with block := { s.block with l1k := t.block.l1k, l1i := t.block.l1i, done := true },
                     requests := s.requests ++ commandRequests .dsub1 s.block })

/-- R85: `DSUB2`. -/
def Obligations.Dsub2LeavesTheMaskedLayer2Key : Prop :=
  encode .dsub2 = 0x00000004#32 ∧
  ∀ s : State, s.block.fault = false →
    faultsAsRuled .dsub2 s ∧
    (keyIsLoaded s.block → tagIsLegal s.block.taglen → s.portAnswers .dsub2 →
      ∃ t, exec .dsub2 s = .next t ∧ layer2Derived s.block.key (s.block.taglen.toNat / 32) t.block ∧
        t = { s with block := { s.block with l2k := t.block.l2k, l2i := t.block.l2i, done := true },
                     requests := s.requests ++ commandRequests .dsub2 s.block })

/-- R86: `DSUB3A`. -/
def Obligations.Dsub3aLeavesTheReducedLayer3aKey : Prop :=
  encode .dsub3a = 0x00000005#32 ∧
  ∀ s : State, s.block.fault = false →
    faultsAsRuled .dsub3a s ∧
    (keyIsLoaded s.block → tagIsLegal s.block.taglen → s.portAnswers .dsub3a →
      ∃ t, exec .dsub3a s = .next t ∧ layer3aDerived s.block.key (s.block.taglen.toNat / 32) t.block ∧
        t = { s with block := { s.block with l3ak := t.block.l3ak, l3ai := t.block.l3ai, done := true },
                     requests := s.requests ++ commandRequests .dsub3a s.block })

/-- R87: `DSUB3B`. -/
def Obligations.Dsub3bLeavesTheLayer3bKey : Prop :=
  encode .dsub3b = 0x00000006#32 ∧
  ∀ s : State, s.block.fault = false →
    faultsAsRuled .dsub3b s ∧
    (keyIsLoaded s.block → tagIsLegal s.block.taglen → s.portAnswers .dsub3b →
      ∃ t, exec .dsub3b s = .next t ∧ layer3bDerived s.block.key (s.block.taglen.toNat / 32) t.block ∧
        t = { s with block := { s.block with l3bk := t.block.l3bk, l3bi := t.block.l3bi, done := true },
                     requests := s.requests ++ commandRequests .dsub3b s.block })

/-- R88: `DSUB` leaves all four layers, and its next state is exactly the one that `DSUB1`, `DSUB2`, `DSUB3A`, `DSUB3B`
in sequence leave. That a failing `DSUB` stops at its first failing request, in whichever layer (`faultsAsRuled`), is
R117 as the model applies it to `DSUB`: DEDUCED, log entry 12, since R88 writes its test after the four derivations. -/
def Obligations.DsubEqualsTheFourInSequence : Prop :=
  encode .dsub = 0x00000007#32 ∧
  ∀ s : State, s.block.fault = false →
    faultsAsRuled .dsub s ∧
    (keyIsLoaded s.block → tagIsLegal s.block.taglen → s.portAnswers .dsub →
      ∃ t1 t2 t3 t, exec .dsub1 s = .next t1 ∧ exec .dsub2 t1 = .next t2 ∧ exec .dsub3a t2 = .next t3 ∧
        exec .dsub3b t3 = .next t ∧ exec .dsub s = .next t ∧
        layer1Derived s.block.key (s.block.taglen.toNat / 32) t.block ∧
        layer2Derived s.block.key (s.block.taglen.toNat / 32) t.block ∧
        layer3aDerived s.block.key (s.block.taglen.toNat / 32) t.block ∧
        layer3bDerived s.block.key (s.block.taglen.toNat / 32) t.block ∧
        t = { s with block := { s.block with l1k := t.block.l1k, l1i := t.block.l1i, l2k := t.block.l2k,
                                             l2i := t.block.l2i, l3ak := t.block.l3ak, l3ai := t.block.l3ai,
                                             l3bk := t.block.l3bk, l3bi := t.block.l3bi, done := true },
                     requests := s.requests ++ commandRequests .dsub s.block })

/-- R89: with one key, every valid entry of each bank after a derivation at a smaller tag length equals the entry of the
same index after a derivation at a larger one, whichever of the commands that write the bank derived either. -/
def Obligations.SmallerVariantIsAPrefixOfTheLarger : Prop :=
  ∀ (i i' : Instr) (s s' : State), i ∈ [.dsub1, .dsub2, .dsub3a, .dsub3b, .dsub] →
    i' ∈ [.dsub1, .dsub2, .dsub3a, .dsub3b, .dsub] → s.block.fault = false → s'.block.fault = false →
    s.block.ready i → s'.block.ready i' → s.portAnswers i → s'.portAnswers i' →
    s'.block.key = s.block.key → s.block.taglen.toNat < s'.block.taglen.toNat →
    ∃ t t', exec i s = .next t ∧ exec i' s' = .next t' ∧
      (i ∈ [.dsub1, .dsub] → i' ∈ [.dsub1, .dsub] →
        ∀ j, j < 256 + (s.block.taglen.toNat / 32 - 1) * 4 → bufRead t'.block.l1k j = bufRead t.block.l1k j) ∧
      (i ∈ [.dsub2, .dsub] → i' ∈ [.dsub2, .dsub] →
        ∀ j, j < 3 * (s.block.taglen.toNat / 32) → bufRead t'.block.l2k j = bufRead t.block.l2k j) ∧
      (i ∈ [.dsub3a, .dsub] → i' ∈ [.dsub3a, .dsub] →
        ∀ j, j < 8 * (s.block.taglen.toNat / 32) → bufRead t'.block.l3ak j = bufRead t.block.l3ak j) ∧
      (i ∈ [.dsub3b, .dsub] → i' ∈ [.dsub3b, .dsub] →
        ∀ j, j < s.block.taglen.toNat / 32 → bufRead t'.block.l3bk j = bufRead t.block.l3bk j)

/-- R44, its consequence: `L1K[j]` after `DSUB1` equals word `j` of `OBUF` after `KDF` with `STREAM = 1` and the same
length. -/
def Obligations.Layer1WordsAreRawStreamWords : Prop :=
  ∀ s s' : State, s.block.fault = false → s'.block.fault = false →
    s.block.ready .dsub1 → s'.block.ready .kdf → s.portAnswers .dsub1 → s'.portAnswers .kdf →
    s'.block.key = s.block.key → s'.block.stream = 1#64 →
    s'.block.len.toNat = 4 * (256 + (s.block.taglen.toNat / 32 - 1) * 4) →
    ∃ t t', exec .dsub1 s = .next t ∧ exec .kdf s' = .next t' ∧
      ∀ j : Fin 268, j.val < 256 + (s.block.taglen.toNat / 32 - 1) * 4 →
        t'.block.readReg (.obuf j) = t.block.readReg (.l1k j)

/-! ## The pad -/

/-- R96, R97: `DPAD` leaves in `PAD` the slice of the block that the derived key `k2` gives for the working nonce,
zeros after it, its length in `PADLEN`, sets `DONE`, issues three requests, and changes nothing else; its faults are
`E_TAGLEN`, `E_NONCE`, `E_KEY`, `E_CIPHER`. -/
def Obligations.DpadLeavesTheSliceOfTheBlock : Prop :=
  encode .dpad = 0x00000008#32 ∧
  ∀ s : State, s.block.fault = false →
    faultsAsRuled .dpad s ∧
    (keyIsLoaded s.block → tagIsLegal s.block.taglen → nonceIsLegal s.block.taglen s.block.nonceLen →
      s.portAnswers .dpad →
      ∃ t, exec .dpad s = .next t ∧
        (∀ j, j < s.block.taglen.toNat / 8 → bufRead t.block.pad j =
          bufRead (encrypt (padKey s.block.key) (padInput s.block)) (padSubIndex s.block * (s.block.taglen.toNat / 8) + j)) ∧
        (∀ j, s.block.taglen.toNat / 8 ≤ j → j < 16 → bufRead t.block.pad j = 0#8) ∧
        t.block.padlen.toNat = s.block.taglen.toNat / 8 ∧
        t = { s with block := { s.block with pad := t.block.pad, padlen := t.block.padlen, done := true },
                     requests := s.requests ++ (derivationRequests s.block.key 0#64 16 ++
                       [⟨padKey s.block.key, padInput s.block⟩]) })

/-- R98: nonces of a short tag that agree but for the low bits ask for one and the same block, in three requests each,
and give pads that are its slices at those low bits. -/
def Obligations.NeighbouringNoncesShareOneBlock : Prop :=
  ∀ (s s' : State) (d : Nat), s.block.fault = false → s'.block.fault = false →
    s.block.ready .dpad → s'.block.ready .dpad → s.portAnswers .dpad → s'.portAnswers .dpad →
    s'.block.key = s.block.key → s'.block.taglen = s.block.taglen →
    (s.block.taglen = 32#32 ∧ d = 4 ∨ s.block.taglen = 64#32 ∧ d = 2) →
    nonce64 s.block / d = nonce64 s'.block / d →
    padInput s'.block = padInput s.block ∧
    ∃ t t', exec .dpad s = .next t ∧ exec .dpad s' = .next t' ∧
      t.requests = s.requests ++ (derivationRequests s.block.key 0#64 16 ++ [⟨padKey s.block.key, padInput s.block⟩]) ∧
      t'.requests = s'.requests ++ (derivationRequests s.block.key 0#64 16 ++ [⟨padKey s.block.key, padInput s.block⟩]) ∧
      (∀ j, j < 16 / d → bufRead t.block.pad j =
        bufRead (encrypt (padKey s.block.key) (padInput s.block)) (nonce64 s.block % d * (16 / d) + j)) ∧
      (∀ j, j < 16 / d → bufRead t'.block.pad j =
        bufRead (encrypt (padKey s.block.key) (padInput s.block)) (nonce64 s'.block % d * (16 / d) + j))

/-- R102: `PAD` and `PADLEN` after `DPAD` are a function of `KEY`, `TAGLEN`, `NONCE[0..NONCE_LEN)` and `NONCE_LEN`;
the pad key, the key of the last request, is a function of `KEY` alone. -/
def Obligations.PadDependsOnTheNonceInUseOnly : Prop :=
  ∀ s s' : State, s.block.fault = false → s'.block.fault = false →
    s.block.ready .dpad → s'.block.ready .dpad → s.portAnswers .dpad → s'.portAnswers .dpad →
    s'.block.key = s.block.key →
    ∃ t t' k2 x x', exec .dpad s = .next t ∧ exec .dpad s' = .next t' ∧
      t.requests = s.requests ++ (derivationRequests s.block.key 0#64 16 ++ [⟨k2, x⟩]) ∧
      t'.requests = s'.requests ++ (derivationRequests s.block.key 0#64 16 ++ [⟨k2, x'⟩]) ∧
      (s'.block.taglen = s.block.taglen → s'.block.nonceLen = s.block.nonceLen →
        (∀ j, j < s.block.nonceLen.toNat → bufRead s'.block.nonce j = bufRead s.block.nonce j) →
        t'.block.pad = t.block.pad ∧ t'.block.padlen = t.block.padlen)

/-! ## All commands -/

/-- R132: a command whose requirements the host has met, with a responder that answers, succeeds instead of
faulting; one issued without them faults `E_KEY`, `E_LEN`, `E_TAGLEN` or `E_NONCE`. -/
def Obligations.MetRequirementsMeanSuccess : Prop :=
  ∀ (i : Instr) (s : State), s.block.fault = false →
    (s.block.ready i → s.portAnswers i → ∃ t, exec i s = .next t ∧ t.block.done = true ∧ t.block.fault = false) ∧
    (¬ s.block.ready i → ∃ code ∈ [ErrCode.eKey, .eLen, .eTaglen, .eNonce],
      exec i s = .next { s with block := faultEntry s.block code })

/-- R53: the sequence of cipher requests of each command and their number; a command that faults on a parameter or
key check issues none. -/
def Obligations.CommandsIssueTheirRequestSequence : Prop :=
  (∀ (i : Instr) (s : State), s.block.fault = false →
    (s.block.ready i → s.portAnswers i → ∃ t, exec i s = .next t ∧ t.requests = s.requests ++ commandRequests i s.block) ∧
    (∀ code, s.block.firstFault i code → ∃ t, exec i s = .next t ∧ t.requests = s.requests)) ∧
  ∀ b : Block,
    (commandRequests .mulmod b).length = 0 ∧ (commandRequests .srst b).length = 0 ∧
    (commandRequests .kdf b).length = b.len.toNat / 16 + 1 ∧ (commandRequests .dpad b).length = 3 ∧
    (b.taglen = 32#32 → (commandRequests .dsub1 b).length = 65 ∧ (commandRequests .dsub2 b).length = 2 ∧
      (commandRequests .dsub3a b).length = 5 ∧ (commandRequests .dsub3b b).length = 1 ∧
      (commandRequests .dsub b).length = 73) ∧
    (b.taglen = 64#32 → (commandRequests .dsub1 b).length = 66 ∧ (commandRequests .dsub2 b).length = 4 ∧
      (commandRequests .dsub3a b).length = 9 ∧ (commandRequests .dsub3b b).length = 1 ∧
      (commandRequests .dsub b).length = 80) ∧
    (b.taglen = 96#32 → (commandRequests .dsub1 b).length = 67 ∧ (commandRequests .dsub2 b).length = 5 ∧
      (commandRequests .dsub3a b).length = 13 ∧ (commandRequests .dsub3b b).length = 1 ∧
      (commandRequests .dsub b).length = 86) ∧
    (b.taglen = 128#32 → (commandRequests .dsub1 b).length = 68 ∧ (commandRequests .dsub2 b).length = 7 ∧
      (commandRequests .dsub3a b).length = 17 ∧ (commandRequests .dsub3b b).length = 2 ∧
      (commandRequests .dsub b).length = 94)

/-- R33: a command reads nothing and writes nothing outside its row. Two states that agree on what the command reads,
`FAULT` and the responder among it, end alike: both succeed with the same results, or both take the same fault, and
everything outside the row's results stays as it was in each. -/
def Obligations.CommandsReadAndWriteOnlyTheirRow : Prop :=
  ∀ (i : Instr) (s s' t : State), readsAgree i s.block s'.block → s'.block.fault = s.block.fault →
    s'.lapses = s.lapses → exec i s = .next t →
    ∃ t', exec i s' = .next t' ∧
      ((i ≠ .srst ∧ s.block.fault = true ∧ t = s ∧ t' = s') ∨
       (t.block.done = true ∧ t.block = { withResults i s.block t.block with done := true } ∧
         t'.block = { withResults i s'.block t.block with done := true }) ∨
       (t.block.fault = true ∧ t.block = faultEntry s.block t.block.err ∧ t'.block = faultEntry s'.block t.block.err))

/-- R54: repeating a successful command with unchanged inputs leaves all state of the block unchanged. -/
def Obligations.RepeatedCommandLeavesTheBlockUnchanged : Prop :=
  ∀ (i : Instr) (s t : State), exec i s = .next t → t.block.done = true → s.block.fault = false →
    ∃ t', exec i t = .next t' ∧ t'.block = t.block

/-- R11: a command but `SRST` writes no input register, and the host's register writes change no result register. -/
def Obligations.CommandsKeepInputsAndWritesKeepResults : Prop :=
  (∀ (i : Instr) (s t : State), i ≠ .srst → exec i s = .next t → sameInputs s.block t.block) ∧
  (∀ (s : State) (reg : Reg) (v : Word) (rest : List HostInput), reg ≠ .cmd →
    s.accesses = .write (offset reg) 4 v :: rest →
    ∃ t, step s = .next t ∧ sameResults s.block t.block)

/-! ## The host port -/

/-- The address map has one register at each mapped offset and finds each register at its own (R41). -/
def Obligations.AddressMapIsOneToOne : Prop :=
  (∀ reg, regAt (offset reg) = some reg) ∧ (∀ off reg, regAt off = some reg → offset reg = off) ∧
  (∀ off, off < 0x2000 → off % 4 = 0 → (regAt off = none ↔ unmapped off))

/-- R41, R44, R45: what a host read of each mapped register returns; the read changes nothing in the block. -/
def Obligations.ReadsReturnTheMappedRegisters : Prop :=
  readsAs 0x0000 (fun _ => 0x4C554301) ∧ readsAs 0x0004 (fun _ => 0) ∧
  readsAs 0x0008 (fun b => b.done.toNat + 2 * b.fault.toNat + 4 * (if b.keyw = 0b1111#4 then 1 else 0)) ∧
  readsAs 0x000C (fun b => b.err.code.toNat) ∧ readsAs 0x0010 (fun b => b.taglen.toNat) ∧
  readsAs 0x0014 (fun b => b.nonceLen.toNat) ∧ readsAs 0x0018 (fun b => b.len.toNat) ∧
  readsAs 0x001C (fun b => b.l1i.toNat + 2 ^ 4 * b.l2i.toNat + 2 ^ 8 * b.l3ai.toNat + 2 ^ 12 * b.l3bi.toNat) ∧
  readsAs 0x0020 (fun b => b.stream.toNat / 2 ^ 32) ∧ readsAs 0x0024 (fun b => b.stream.toNat % 2 ^ 32) ∧
  readsAs 0x0028 (fun b => b.olen.toNat) ∧ readsAs 0x002C (fun b => b.padlen.toNat) ∧
  (∀ w, w < 4 → readsAs (0x0030 + 4 * w) (fun _ => 0) ∧
    readsAs (0x0040 + 4 * w) (fun b => bufWordNat b.nonce w) ∧
    readsAs (0x0050 + 4 * w) (fun b => numWordNat 4 b.a.toNat w) ∧
    readsAs (0x0060 + 4 * w) (fun b => numWordNat 4 b.b.toNat w) ∧
    readsAs (0x0070 + 4 * w) (fun b => numWordNat 4 b.r.toNat w) ∧
    readsAs (0x0080 + 4 * w) (fun b => bufWordNat b.pad w) ∧
    readsAs (0x0280 + 4 * w) (fun b => (bufRead b.l3bk w).toNat)) ∧
  (∀ j, j < 12 → readsAs (0x0100 + 8 * j) (fun b => (bufRead b.l2k j).toNat / 2 ^ 32) ∧
    readsAs (0x0104 + 8 * j) (fun b => (bufRead b.l2k j).toNat % 2 ^ 32)) ∧
  (∀ j, j < 32 → readsAs (0x0180 + 8 * j) (fun b => (bufRead b.l3ak j).toNat / 2 ^ 32) ∧
    readsAs (0x0184 + 8 * j) (fun b => (bufRead b.l3ak j).toNat % 2 ^ 32)) ∧
  (∀ j, j < 268 → readsAs (0x0400 + 4 * j) (fun b => (bufRead b.l1k j).toNat) ∧
    readsAs (0x0C00 + 4 * j) (fun b => bufWordNat b.obuf j))

/-- R46: what a host write of each mapped register does, whatever `STATUS` holds: a read-write register takes all 32
bits, a key word also sets its `KEYW` bit, `CMD` runs the command, a read-only register ignores it; nothing else
changes. -/
def Obligations.WritesStoreTheMappedRegisters : Prop :=
  writesAs 0x0010 (fun v b b' => b' = { b with taglen := v }) ∧
  writesAs 0x0014 (fun v b b' => b' = { b with nonceLen := v }) ∧
  writesAs 0x0018 (fun v b b' => b' = { b with len := v }) ∧
  writesAs 0x0020 (fun v b b' => b' = { b with stream := b'.stream } ∧ numWordSet 2 0 v b.stream.toNat b'.stream.toNat) ∧
  writesAs 0x0024 (fun v b b' => b' = { b with stream := b'.stream } ∧ numWordSet 2 1 v b.stream.toNat b'.stream.toNat) ∧
  (∀ w, w < 4 →
    writesAs (0x0030 + 4 * w) (fun v b b' => b' = { b with key := b'.key, keyw := b'.keyw } ∧
      bufWordSet w v b.key b'.key ∧ ∀ k, k < 4 → b'.keyw.getLsbD k = (decide (k = w) || b.keyw.getLsbD k)) ∧
    writesAs (0x0040 + 4 * w) (fun v b b' => b' = { b with nonce := b'.nonce } ∧ bufWordSet w v b.nonce b'.nonce) ∧
    writesAs (0x0050 + 4 * w) (fun v b b' => b' = { b with a := b'.a } ∧ numWordSet 4 w v b.a.toNat b'.a.toNat) ∧
    writesAs (0x0060 + 4 * w) (fun v b b' => b' = { b with b := b'.b } ∧ numWordSet 4 w v b.b.toNat b'.b.toNat)) ∧
  (∀ (s : State) (v : Word) (rest : List HostInput), s.accesses = .write 0x0004 4 v :: rest →
    (∀ i, decode v = .instr i → step s = exec i { s with accesses := rest }) ∧
    (∀ why, decode v = .illegal why → s.block.fault = false →
      step s = .next { s with accesses := rest, block := faultEntry s.block .eOp })) ∧
  (∀ reg, access reg = .ro → writesAs (offset reg) (fun _ b b' => b' = b))

/-- R42, R43: an access that is not 4 bytes wide or not aligned, and an access to an unmapped offset of the window,
is refused; a write to a read-only register is ignored; a read of a write-only register returns 0. -/
def Obligations.UndefinedAccessesAreRefused : Prop :=
  ∀ (s : State) (rest : List HostInput) (off width : Nat) (v : Word),
    (width ≠ 4 ∨ off % 4 ≠ 0 ∨ unmapped off →
      (s.accesses = .read off width :: rest → ∃ why, step s = .refused why) ∧
      (s.accesses = .write off width v :: rest → ∃ why, step s = .refused why)) ∧
    (∀ reg, access reg = .ro → s.accesses = .write (offset reg) 4 v :: rest →
      step s = .next { s with accesses := rest }) ∧
    (∀ reg, access reg = .wo → s.accesses = .read (offset reg) 4 :: rest →
      step s = .next { s with accesses := rest, replies := s.replies ++ [0#32] })

/-- The name of each refusal is the model's choice (DESIGN CHOICE, log entry 8): width and alignment come first, then
the end of the window, then the map; R42, R43 (c) and R40 give these accesses no meaning and no order among the
reasons. -/
def Obligations.RefusalsNameTheirReason : Prop :=
  ∀ (s : State) (rest : List HostInput) (off width : Nat) (v : Word),
    s.accesses = .read off width :: rest ∨ s.accesses = .write off width v :: rest →
    (width ≠ 4 ∨ off % 4 ≠ 0 → step s = .refused (.undefinedAccess off width)) ∧
    (width = 4 → off % 4 = 0 → 0x2000 ≤ off → step s = .refused (.outsideWindow off)) ∧
    (width = 4 → off % 4 = 0 → unmapped off → step s = .refused (.unmappedOffset off))

/-- R12, R43 (b), R123: the key can never be read back. Two machines that differ in the key bytes alone give the host
the same answer to every read. -/
def Obligations.ReadsRevealNothingOfTheKey : Prop :=
  ∀ (s t : State) (k : Bytes16) (off width : Nat) (rest : List HostInput), s.accesses = .read off width :: rest →
    step s = .next t →
    ∃ t', step { s with block := { s.block with key := k } } = .next t' ∧ t'.replies = t.replies ∧
      t' = { t with block := { t.block with key := k } }

/-- R29, R48: a step performs the oldest pending access and no other, and only a read gives the host a word; with none
pending the block holds all state (log entry 4, R125). -/
def Obligations.StepsTakeOneAccessInOrder : Prop :=
  (∀ s : State, s.accesses = [] → step s = .next s) ∧
  (∀ (s t : State) (input : HostInput) (rest : List HostInput), s.accesses = input :: rest → step s = .next t →
    t.accesses = rest ∧
    (∀ off width, input = .read off width → ∃ v, t.replies = s.replies ++ [v]) ∧
    ((∀ off width, input ≠ .read off width) → t.replies = s.replies))

/-- R7, R52: the responder gives equal answers for the whole life of the system. That it does so because no step
writes the list of its lapses is the model's choice (DESIGN CHOICE, log entry 2), and so is that the trace of requests
only ever grows, through every reset (DESIGN CHOICE, log entry 6). -/
def Obligations.StepsKeepTheResponder : Prop :=
  ∀ s t : State, step s = .next t → t.lapses = s.lapses ∧ t.cipher = s.cipher ∧ ∃ more, t.requests = s.requests ++ more

/-- R65: the pseudo-instructions that load operands leave them in their registers, and those that read numbers give
their value. -/
def Obligations.ScriptLinesLoadAndReadOperands : Prop :=
  ∀ (s : State) (rest : List HostInput),
    (∀ bytes, s.accesses = expand (.ldkey bytes) ++ rest →
      core.run 4 s = .next { s with accesses := rest, block := { s.block with key := bytes, keyw := 0b1111#4 } }) ∧
    (∀ bytes, (ScriptLine.ldnonce bytes).wellFormed = true → s.accesses = expand (.ldnonce bytes) ++ rest →
      ∃ b, core.run 5 s = .next { s with accesses := rest, block := b } ∧
        b = { s.block with nonce := b.nonce, nonceLen := b.nonceLen } ∧ b.nonceLen.toNat = bytes.length ∧
        ∀ i, i < 16 → bufRead b.nonce i = bytes.getD i 0#8) ∧
    (∀ v, s.accesses = expand (.ld128 .a v) ++ rest →
      core.run 4 s = .next { s with accesses := rest, block := { s.block with a := v } }) ∧
    (∀ v, s.accesses = expand (.ld128 .b v) ++ rest →
      core.run 4 s = .next { s with accesses := rest, block := { s.block with b := v } }) ∧
    (∀ v, s.accesses = expand (.ld64 v) ++ rest →
      core.run 2 s = .next { s with accesses := rest, block := { s.block with stream := v } }) ∧
    (s.accesses = expand .rd128 ++ rest →
      ∃ ws, core.run 4 s = .next { s with accesses := rest, replies := s.replies ++ ws } ∧
        wordsValue ws = s.block.r.toNat) ∧
    (∀ j, s.accesses = expand (.rd64 (.l2k j)) ++ rest →
      ∃ ws, core.run 2 s = .next { s with accesses := rest, replies := s.replies ++ ws } ∧
        wordsValue ws = (bufRead s.block.l2k j).toNat) ∧
    (∀ j, s.accesses = expand (.rd64 (.l3ak j)) ++ rest →
      ∃ ws, core.run 2 s = .next { s with accesses := rest, replies := s.replies ++ ws } ∧
        wordsValue ws = (bufRead s.block.l3ak j).toNat)

/-! ## Invariants -/

/-- R26, R27: every step keeps the flags in agreement, from any state in which they agree. -/
def Obligations.StepsKeepTheFlagsInAgreement : Prop :=
  ∀ s t : State, s.block.FlagsAgree → step s = .next t → t.block.FlagsAgree

/-- R18, R72, R90, R91, R124: every step keeps every result in its range, from any state in which they are. -/
def Obligations.StepsKeepResultsInRange : Prop :=
  ∀ s t : State, s.block.ResultsInRange → step s = .next t → t.block.ResultsInRange

/-- R19 to R25: every step keeps every result container zero past its valid part, and the valid parts of legal
sizes. -/
def Obligations.StepsKeepUnusedPartsZero : Prop :=
  ∀ s t : State, s.block.ZeroFilled → step s = .next t → t.block.ZeroFilled

/-- The invariants hold at reset. -/
def Obligations.ResetMeetsTheInvariants : Prop :=
  State.reset.block.FlagsAgree ∧ State.reset.block.ResultsInRange ∧ State.reset.block.ZeroFilled
end

