-- ==== Sys2Proof/Laws/AddressMap.lean ====
section
/-! SUPPORT. The address map names each register at one offset, and finds it there. -/

namespace Sys2Proof.Machine

theorem offset_of_rowIndex {base stride n off : Nat} {j : Fin n} (h : rowIndex base stride n off = some j) :
    base + stride * j.val = off := by
  unfold rowIndex at h
  split at h
  · split at h
    · cases h
      rename_i hc
      have := Nat.div_add_mod (off - base) stride
      simp only at *
      omega
    · cases h
  · cases h

theorem offset_of_singleRegs {off : Nat} {r : Reg} (h : singleRegs.lookup off = some r) : offset r = off := by
  have hmem : ∀ p ∈ singleRegs, offset p.2 = p.1 := by decide
  have key : ∀ (l : List (Nat × Reg)), l.lookup off = some r → (off, r) ∈ l := by
    intro l
    induction l with
    | nil => intro h; cases h
    | cons p l ih =>
      obtain ⟨a, b⟩ := p
      intro h
      rw [List.lookup_cons] at h
      split at h
      · rename_i heq
        cases h
        rw [eq_of_beq heq]
        exact List.mem_cons_self
      · exact List.mem_cons_of_mem _ (ih h)
  exact hmem _ (key _ h)

theorem some_of_orElse {x y : Option Reg} {r : Reg} (h : (x <|> y) = some r) : x = some r ∨ y = some r := by
  cases x <;> simp_all

theorem offset_of_row {base stride n off : Nat} {name : Fin n → Reg} {r : Reg}
    (hname : ∀ j, offset (name j) = base + stride * j.val) (h : (rowIndex base stride n off).map name = some r) :
    offset r = off := by
  obtain ⟨j, hj, rfl⟩ := Option.map_eq_some_iff.mp h
  rw [hname, offset_of_rowIndex hj]

/-- The register found at an offset stands there (R41). -/
theorem offset_of_regAt {off : Nat} {r : Reg} (h : regAt off = some r) : offset r = off := by
  unfold regAt at h
  rcases some_of_orElse h with h | h
  · exact offset_of_singleRegs h
  repeat' first
    | exact offset_of_row (fun _ => rfl) h
    | rcases some_of_orElse h with h | h

/-- Each register is found at its own offset (R41). -/
theorem regAt_offset (r : Reg) : regAt (offset r) = some r := by
  have hkey : ∀ w : Fin 4, regAt (offset (.key w)) = some (.key w) := by decide
  have hnonce : ∀ w : Fin 4, regAt (offset (.nonce w)) = some (.nonce w) := by decide
  have ha : ∀ w : Fin 4, regAt (offset (.a w)) = some (.a w) := by decide
  have hb : ∀ w : Fin 4, regAt (offset (.b w)) = some (.b w) := by decide
  have hr : ∀ w : Fin 4, regAt (offset (.r w)) = some (.r w) := by decide
  have hpad : ∀ w : Fin 4, regAt (offset (.pad w)) = some (.pad w) := by decide
  have hl2h : ∀ j : Fin 12, regAt (offset (.l2kHi j)) = some (.l2kHi j) := by decide +kernel
  have hl2l : ∀ j : Fin 12, regAt (offset (.l2kLo j)) = some (.l2kLo j) := by decide +kernel
  have hl3ah : ∀ j : Fin 32, regAt (offset (.l3akHi j)) = some (.l3akHi j) := by decide +kernel
  have hl3al : ∀ j : Fin 32, regAt (offset (.l3akLo j)) = some (.l3akLo j) := by decide +kernel
  have hl3b : ∀ j : Fin 4, regAt (offset (.l3bk j)) = some (.l3bk j) := by decide +kernel
  have hl1 : ∀ j : Fin 268, regAt (offset (.l1k j)) = some (.l1k j) := by decide +kernel
  have hobuf : ∀ w : Fin 268, regAt (offset (.obuf w)) = some (.obuf w) := by decide +kernel
  cases r
  case key w => exact hkey w
  case nonce w => exact hnonce w
  case a w => exact ha w
  case b w => exact hb w
  case r w => exact hr w
  case pad w => exact hpad w
  case l2kHi j => exact hl2h j
  case l2kLo j => exact hl2l j
  case l3akHi j => exact hl3ah j
  case l3akLo j => exact hl3al j
  case l3bk j => exact hl3b j
  case l1k j => exact hl1 j
  case obuf w => exact hobuf w
  all_goals rfl

theorem regAt_eq_some_iff {off : Nat} {r : Reg} : regAt off = some r ↔ offset r = off :=
  ⟨offset_of_regAt, fun h => h ▸ regAt_offset r⟩

theorem offset_injective : Function.Injective offset := fun r r' h => by
  have := regAt_offset r'
  rw [← h, regAt_offset r] at this
  exact Option.some.inj this

/-- Every register is at a multiple of 4 (R41). -/
theorem offset_mod_four (r : Reg) : offset r % 4 = 0 := by
  cases r <;> simp only [offset] <;> omega

/-- Every register is inside the window, the last of them at `0x102C` (R40, R41). -/
theorem offset_le (r : Reg) : offset r ≤ 0x102C := by
  cases r <;> simp only [offset] <;> omega

end Sys2Proof.Machine
end

