-- ==== Sys2Proof/Laws/Bytes.lean ====
section
/-! SUPPORT. Byte strings and buffers: reading what was built, extensionality, big-endian decode and encode, and
the words of byte buffers and wide numbers. -/

namespace Sys2Proof.Machine

variable {α : Type} [Inhabited α] {n : Nat}

/-! ## Buffers -/

theorem bufRead_bufOf (f : Nat → α) {i : Nat} (h : i < n) : bufRead (bufOf n f) i = f i := by
  simp [bufRead, bufOf, List.getD, h]

theorem bufRead_bufFill (x : α) {i : Nat} (h : i < n) : bufRead (bufFill n x) i = x := by
  simp [bufRead, bufFill, List.getD, h]

theorem buf_ext {x y : Buf α n} (h : ∀ i, i < n → bufRead x i = bufRead y i) : x = y := by
  obtain ⟨xs, hx⟩ := x
  obtain ⟨ys, hy⟩ := y
  suffices xs = ys by subst this; rfl
  refine List.ext_getElem (by omega) fun i h1 h2 => ?_
  have := h i (by omega)
  simpa [bufRead, List.getD, h1, h2] using this

theorem bufOf_congr {f g : Nat → α} (h : ∀ i, i < n → f i = g i) : bufOf n f = bufOf n g :=
  buf_ext fun i hi => by rw [bufRead_bufOf f hi, bufRead_bufOf g hi, h i hi]

theorem bufOf_bufRead (x : Buf α n) : bufOf n (bufRead x) = x :=
  buf_ext fun _ hi => bufRead_bufOf _ hi

@[simp] theorem byteAt_toList (b : Buf Byte n) (i : Nat) : byteAt b.toList i = bufRead b i := rfl

theorem bufRead_zeroPadded (s : List Byte) {i : Nat} (h : i < n) : bufRead (zeroPadded n s) i = byteAt s i :=
  bufRead_bufOf _ h

theorem byteAt_of_length_le {s : List Byte} {i : Nat} (h : s.length ≤ i) : byteAt s i = 0#8 := by
  simp [byteAt, List.getD, h]

theorem byteAt_append (s t : List Byte) (i : Nat) :
    byteAt (s ++ t) i = if i < s.length then byteAt s i else byteAt t (i - s.length) := by
  unfold byteAt
  split
  · simp [List.getD, List.getElem?_append_left, *]
  · simp [List.getD, List.getElem?_append_right, Nat.not_lt.mp, *]

theorem byteAt_take (s : List Byte) (m i : Nat) : byteAt (s.take m) i = if i < m then byteAt s i else 0#8 := by
  unfold byteAt
  split <;> simp [List.getD, *]

theorem byteAt_drop (s : List Byte) (m i : Nat) : byteAt (s.drop m) i = byteAt s (m + i) := by
  simp [byteAt, List.getD]

theorem byteAt_slice (s : List Byte) (off m i : Nat) :
    byteAt (slice s off m) i = if i < m then byteAt s (off + i) else 0#8 := by
  rw [slice, byteAt_take, byteAt_drop]

theorem slice_length (s : List Byte) (off m : Nat) : (slice s off m).length = min m (s.length - off) := by
  simp [slice]

theorem slice_eq_map (s : List Byte) (off m : Nat) (h : off + m ≤ s.length) :
    slice s off m = (List.range m).map fun i => byteAt s (off + i) := by
  refine List.ext_getElem (by simp [slice]; omega) fun i h1 h2 => ?_
  have hi : off + i < s.length := by simp [slice] at h1; omega
  simp [slice, byteAt, List.getD, hi]

/-! ## Big-endian numbers -/

theorem be_append (s t : List Byte) : be (s ++ t) = be s * 256 ^ t.length + be t := by
  induction t using List.reverseRecOn with
  | nil => simp [be]
  | append_singleton t x ih =>
    have step (u : List Byte) : be (u ++ [x]) = be u * 256 + x.toNat := by simp [be]
    rw [← List.append_assoc, step, step, ih]
    simp [pow_succ]
    ring

theorem be_lt (s : List Byte) : be s < 256 ^ s.length := by
  induction s using List.reverseRecOn with
  | nil => simp [be]
  | append_singleton s x ih =>
    rw [be_append]
    have := x.isLt
    simp only [be, List.foldl, List.length_append, List.length_singleton, pow_succ, pow_zero] at *
    omega

@[simp] theorem enc_length (m v : Nat) : (enc m v).length = m := by simp [enc]

theorem byteAt_enc (m v : Nat) {i : Nat} (h : i < m) : byteAt (enc m v) i = BitVec.ofNat 8 (v / 256 ^ (m - 1 - i)) := by
  simp [byteAt, enc, List.getD, h]

theorem enc_succ (m v : Nat) : enc (m + 1) v = enc m (v / 256) ++ [BitVec.ofNat 8 v] := by
  refine List.ext_getElem (by simp) fun i h1 h2 => ?_
  by_cases hi : i < m
  · rw [List.getElem_append_left (by simpa)]
    simp only [enc, List.getElem_map, List.getElem_range]
    rw [Nat.div_div_eq_div_mul, ← pow_succ']
    congr 3
    omega
  · have : i = m := by simp at h1; omega
    subst this
    simp [enc]

/-- `be(encN(v)) = v` (R8), and what is dropped where `v` does not fit. -/
theorem be_enc (m v : Nat) : be (enc m v) = v % 256 ^ m := by
  induction m generalizing v with
  | zero => simp [enc, be, Nat.mod_one]
  | succ m ih =>
    have hx : be [BitVec.ofNat 8 v] = v % 256 := by simp [be]
    rw [enc_succ, be_append, ih, hx]
    simp only [List.length_singleton, pow_one]
    rw [pow_succ, Nat.mul_comm (256 ^ m) 256, Nat.mod_mul]
    ring

theorem enc_be (s : List Byte) : enc s.length (be s) = s := by
  induction s using List.reverseRecOn with
  | nil => simp [enc]
  | append_singleton s x ih =>
    have hx : be [x] = x.toNat := by simp [be]
    have hlt := x.isLt
    rw [List.length_append, List.length_singleton, enc_succ, be_append, hx]
    simp only [List.length_singleton, pow_one]
    have h1 : (be s * 256 + x.toNat) / 256 = be s := by omega
    have h2 : BitVec.ofNat 8 (be s * 256 + x.toNat) = x := by
      apply BitVec.eq_of_toNat_eq
      simp
      omega
    rw [h1, h2, ih]

theorem be_four (a b c d : Byte) : be [a, b, c, d] = (a ++ b ++ c ++ d : BitVec (8 + 8 + 8 + 8)).toNat := by
  have := a.isLt; have := b.isLt; have := c.isLt; have := d.isLt
  simp only [be, List.foldl, BitVec.toNat_append, Nat.shiftLeft_eq]
  rw [← Nat.shiftLeft_eq, ← Nat.shiftLeft_eq, ← Nat.shiftLeft_eq]
  rw [← Nat.shiftLeft_add_eq_or_of_lt (by omega), ← Nat.shiftLeft_add_eq_or_of_lt (by omega),
    ← Nat.shiftLeft_add_eq_or_of_lt (by omega)]
  simp only [Nat.shiftLeft_eq]
  omega

end Sys2Proof.Machine
end

