-- ==== Sys2Proof/Laws/Words.lean ====
section
/-! SUPPORT. The 32-bit and 64-bit words of byte strings, byte buffers and wide numbers: what reading gives and
that a word written is the word read, with every other word unchanged. -/

namespace Sys2Proof.Machine

variable {n : Nat}

/-! ## Words of a byte string -/

theorem be32At_eq (s : List Byte) (off : Nat) (h : off + 4 ≤ s.length) :
    be32At s off = (byteAt s off ++ byteAt s (off + 1) ++ byteAt s (off + 2) ++ byteAt s (off + 3) : BitVec (8 + 8 + 8 + 8)) := by
  have : List.range 4 = [0, 1, 2, 3] := rfl
  rw [be32At, slice_eq_map s off 4 h, this]
  simp only [List.map, be_four, Nat.add_zero]
  exact BitVec.ofNat_toNat _ _

theorem be64At_eq (s : List Byte) (off : Nat) (h : off + 8 ≤ s.length) :
    be64At s off = (be32At s off ++ be32At s (off + 4) : BitVec (32 + 32)) := by
  have hs : slice s off 8 = slice s off 4 ++ slice s (off + 4) 4 := by
    simp only [slice]
    rw [show (8 : Nat) = 4 + 4 from rfl, List.take_add, List.drop_drop]
  have hl : (slice s (off + 4) 4).length = 4 := by simp [slice]; omega
  have hl0 : (slice s off 4).length = 4 := by simp [slice]; omega
  have h1 := be_lt (slice s off 4)
  have h2 := be_lt (slice s (off + 4) 4)
  rw [hl] at h2
  rw [hl0] at h1
  apply BitVec.eq_of_toNat_eq
  rw [be64At, hs, be_append, hl, BitVec.toNat_append, ← Nat.shiftLeft_add_eq_or_of_lt]
  · simp only [be32At, BitVec.toNat_ofNat, Nat.shiftLeft_eq]
    norm_num at *
    omega
  · simp only [be32At, BitVec.toNat_ofNat]
    omega

/-! ## Words of a byte buffer -/

/-- The byte with the lowest index is in bits 31 to 24 (R44 (a)). -/
theorem bufWord_eq (b : Buf Byte n) (w : Nat) (h : 4 * w + 4 ≤ n) :
    bufWord b w = (bufRead b (4 * w) ++ bufRead b (4 * w + 1) ++ bufRead b (4 * w + 2) ++ bufRead b (4 * w + 3) :
      BitVec (8 + 8 + 8 + 8)) := by
  rw [bufWord, be32At_eq _ _ (by rw [b.size]; omega)]
  simp

/-- The value of a word of a byte buffer (R44 (a)). -/
theorem bufWord_toNat (b : Buf Byte n) (w : Nat) (h : 4 * w + 4 ≤ n) :
    (bufWord b w).toNat = (bufRead b (4 * w)).toNat * 2 ^ 24 + (bufRead b (4 * w + 1)).toNat * 2 ^ 16 +
      (bufRead b (4 * w + 2)).toNat * 2 ^ 8 + (bufRead b (4 * w + 3)).toNat := by
  rw [bufWord_eq b w h, ← be_four]
  simp only [be, List.foldl]
  omega

theorem byteAt_enc_word (v : Word) {i : Nat} (h : i < 4) : byteAt (enc 4 v.toNat) i = v.extractLsb' (24 - 8 * i) 8 := by
  rw [byteAt_enc _ _ h]
  apply BitVec.eq_of_toNat_eq
  simp only [BitVec.toNat_ofNat, BitVec.extractLsb'_toNat, Nat.shiftRight_eq_div_pow]
  congr 2
  rw [show (256 : Nat) = 2 ^ 8 from rfl, ← pow_mul]
  congr 1
  omega

theorem bufRead_setBufWord (b : Buf Byte n) (w : Nat) (v : Word) {i : Nat} (h : i < n) :
    bufRead (setBufWord b w v) i = if i / 4 = w then v.extractLsb' (24 - 8 * (i % 4)) 8 else bufRead b i := by
  rw [setBufWord, bufRead_bufOf _ h]
  split
  · exact byteAt_enc_word v (by omega)
  · rfl

theorem word_of_bytes (v : Word) :
    (v.extractLsb' 24 8 ++ v.extractLsb' 16 8 ++ v.extractLsb' 8 8 ++ v.extractLsb' 0 8 : BitVec (8 + 8 + 8 + 8)) = v := by
  apply BitVec.eq_of_getLsbD_eq
  intro i hi
  simp only [BitVec.getLsbD_append, BitVec.getLsbD_extractLsb']
  by_cases h0 : i < 8
  · simp [h0]
  · by_cases h1 : i < 16
    · simp [h0, show i - 8 < 8 by omega, show 8 + (i - 8) = i by omega]
    · by_cases h2 : i < 24
      · simp [h0, show ¬ i - 8 < 8 by omega, show i - 8 - 8 < 8 by omega, show 16 + (i - 8 - 8) = i by omega]
      · simp [h0, show ¬ i - 8 < 8 by omega, show ¬ i - 8 - 8 < 8 by omega, show i - 8 - 8 - 8 < 8 by omega,
          show 24 + (i - 8 - 8 - 8) = i by omega]

theorem bufWord_setBufWord (b : Buf Byte n) (w w' : Nat) (v : Word) (h : 4 * w' + 4 ≤ n) :
    bufWord (setBufWord b w v) w' = if w' = w then v else bufWord b w' := by
  rw [bufWord_eq _ _ h, bufWord_eq _ _ h]
  rw [bufRead_setBufWord _ _ _ (by omega), bufRead_setBufWord _ _ _ (by omega), bufRead_setBufWord _ _ _ (by omega),
    bufRead_setBufWord _ _ _ (by omega)]
  rw [show 4 * w' / 4 = w' by omega, show (4 * w' + 1) / 4 = w' by omega, show (4 * w' + 2) / 4 = w' by omega,
    show (4 * w' + 3) / 4 = w' by omega, show 4 * w' % 4 = 0 by omega, show (4 * w' + 1) % 4 = 1 by omega,
    show (4 * w' + 2) % 4 = 2 by omega, show (4 * w' + 3) % 4 = 3 by omega]
  split
  · exact word_of_bytes v
  · rfl

/-- The bytes of a word joined from four bytes. -/
theorem byte_of_join (a b c d : Byte) (k : Nat) (hk : k < 4) :
    (a ++ b ++ c ++ d : BitVec (8 + 8 + 8 + 8)).extractLsb' (24 - 8 * k) 8 = [a, b, c, d].getD k 0#8 := by
  have hcase : k = 0 ∨ k = 1 ∨ k = 2 ∨ k = 3 := by omega
  rcases hcase with h | h | h | h <;> subst h <;> apply BitVec.eq_of_getLsbD_eq <;> intro j hj <;>
    simp only [BitVec.getLsbD_extractLsb', BitVec.getLsbD_append, hj, decide_true, Bool.true_and]
  · simp [hj, show ¬ 24 + j < 8 by omega, show ¬ 24 + j - 8 < 8 by omega,
      show ¬ 24 + j - 8 - 8 < 8 by omega, show 24 + j - 8 - 8 - 8 = j by omega]
  · simp [hj, show ¬ 16 + j < 8 by omega, show ¬ 16 + j - 8 < 8 by omega,
      show 16 + j - 8 - 8 = j by omega]
  · simp [hj, show ¬ 8 + j < 8 by omega]
  · simp [hj]

/-- Byte `i` of a buffer is the byte of its word `i / 4`. -/
theorem bufRead_eq_of_bufWord (b : Buf Byte n) {i : Nat} (h : i / 4 * 4 + 4 ≤ n) :
    bufRead b i = (bufWord b (i / 4)).extractLsb' (24 - 8 * (i % 4)) 8 := by
  rw [bufWord_eq _ _ (by omega)]
  refine Eq.trans ?_ (byte_of_join _ _ _ _ (i % 4) (by omega)).symm
  have hcase : i % 4 = 0 ∨ i % 4 = 1 ∨ i % 4 = 2 ∨ i % 4 = 3 := by omega
  rcases hcase with h | h | h | h <;> rw [h]
  · exact congrArg (bufRead b) (by omega)
  · exact congrArg (bufRead b) (by omega)
  · exact congrArg (bufRead b) (by omega)
  · exact congrArg (bufRead b) (by omega)

/-- A buffer is its words. -/
theorem buf_eq_of_words {x y : Buf Byte n} (hn : n % 4 = 0) (h : ∀ w, 4 * w + 4 ≤ n → bufWord x w = bufWord y w) :
    x = y := by
  refine buf_ext fun i hi => ?_
  rw [bufRead_eq_of_bufWord x (by omega), bufRead_eq_of_bufWord y (by omega), h _ (by omega)]

/-! ## Words of a wide number -/

/-- The value of a word of a wide number (R44 (b)). -/
theorem numWord_toNat {width : Nat} (words : Nat) (x : BitVec width) (w : Nat) :
    (numWord words x w).toNat = x.toNat / 2 ^ (32 * (words - 1 - w)) % 2 ^ 32 := by
  rw [numWord, BitVec.extractLsb'_toNat, Nat.shiftRight_eq_div_pow]

/-- Word `w'` after word `w` is set, in a number of `words` words (R44 (b), R46 (a)). -/
theorem numWord_setNumWord {words : Nat} (x : BitVec (32 * words)) (w w' : Nat) (v : Word) (hw : w < words)
    (hw' : w' < words) : numWord words (setNumWord words x w v) w' = if w' = w then v else numWord words x w' := by
  apply BitVec.eq_of_getLsbD_eq
  intro i hi
  simp only [numWord, setNumWord, BitVec.getLsbD_extractLsb', BitVec.getLsbD_or, BitVec.getLsbD_and, BitVec.getLsbD_not,
    BitVec.getLsbD_shiftLeft, BitVec.getLsbD_setWidth, hi, decide_true, Bool.true_and]
  have hones (k : Nat) : (0xFFFFFFFF#32).getLsbD k = decide (k < 32) := by
    rw [show (0xFFFFFFFF#32) = BitVec.allOnes 32 from rfl, BitVec.getLsbD_allOnes]
  have hlt : 32 * (words - 1 - w') + i < 32 * words := by
    have := Nat.mul_le_mul_left 32 (show words - 1 - w' + 1 ≤ words by omega)
    omega
  rw [hones]
  simp only [hlt, decide_true, Bool.true_and]
  by_cases h : w' = w
  · subst h
    have hi' : i < 32 * words := by omega
    simp [hi, hi']
  · simp only [if_neg h, BitVec.getLsbD_extractLsb', hi, decide_true, Bool.true_and]
    rcases Nat.lt_or_gt_of_ne h with hlt' | hgt
    · have hge : ¬ 32 * (words - 1 - w') + i - 32 * (words - 1 - w) < 32 := by
        have := Nat.mul_le_mul_left 32 (show words - 1 - w + 1 ≤ words - 1 - w' by omega)
        omega
      have hz : v.getLsbD (32 * (words - 1 - w') + i - 32 * (words - 1 - w)) = false :=
        BitVec.getLsbD_of_ge _ _ (by omega)
      simp [hge, hz]
    · have hl : 32 * (words - 1 - w') + i < 32 * (words - 1 - w) := by
        have := Nat.mul_le_mul_left 32 (show words - 1 - w' + 1 ≤ words - 1 - w by omega)
        omega
      simp [hl]

/-- A wide number is its words. -/
theorem num_eq_of_words {words : Nat} {x y : BitVec (32 * words)}
    (h : ∀ w, w < words → numWord words x w = numWord words y w) : x = y := by
  apply BitVec.eq_of_getLsbD_eq
  intro i hi
  have := congrArg (fun z : Word => z.getLsbD (i % 32)) (h (words - 1 - i / 32) (by omega))
  simp only [numWord, BitVec.getLsbD_extractLsb', show i % 32 < 32 by omega, decide_true, Bool.true_and] at this
  rwa [show 32 * (words - 1 - (words - 1 - i / 32)) + i % 32 = i by omega] at this

end Sys2Proof.Machine
end

