-- ==== Sys2Proof/Laws/Cipher.lean ====
section
/-! SUPPORT. The cipher port: every derivation follows its list of requests. Where all of them are answered the
whole list is sent and the value is known; where one lapses the list is sent up to it and the lapse is the result. -/

namespace Sys2Proof.Machine

theorem State.cipher_of_answered {s : State} {k x : Bytes16} (h : s.answered ⟨k, x⟩) : s.cipher k x = .ok (encrypt k x) := by
  have h' : s.lapses.lookup ⟨k, x⟩ = none := h
  simp only [State.cipher, h']

theorem State.cipher_of_lapse {s : State} {k x : Bytes16} {l : CipherLapse} (h : s.lapses.lookup ⟨k, x⟩ = some l) :
    s.cipher k x = .error l := by
  simp only [State.cipher, h]

/-- A run against the responder of `s` follows the request list `reqs` and is worth `v`. -/
structure State.Follows {α : Type} (s : State) (run : PortRun α) (reqs : List CipherRequest) (v : α) : Prop where
  answered : (∀ q ∈ reqs, s.answered q) → run.requests = reqs ∧ run.result = .ok v
  lapsed : ∀ sent q rest l, reqs = sent ++ q :: rest → (∀ p ∈ sent, s.answered p) → s.lapses.lookup q = some l →
    run.requests = sent ++ [q] ∧ run.result = .error l

variable {α β : Type} {s : State}

theorem State.Follows.done (v : α) : s.Follows (PortRun.done v) [] v where
  answered _ := ⟨rfl, rfl⟩
  lapsed sent q rest l h := by simp at h

theorem State.Follows.ask (k x : Bytes16) : s.Follows (ask s.cipher k x) [⟨k, x⟩] (encrypt k x) where
  answered h := ⟨rfl, State.cipher_of_answered (h _ (by simp))⟩
  lapsed sent q rest l h _ hl := by
    cases sent with
    | nil =>
      simp only [List.nil_append, List.cons.injEq] at h
      obtain ⟨rfl, rfl⟩ := h
      exact ⟨rfl, State.cipher_of_lapse hl⟩
    | cons p sent => simp at h

theorem State.Follows.map {run : PortRun α} {reqs : List CipherRequest} {v : α} (f : α → β)
    (h : s.Follows run reqs v) : s.Follows (run.map f) reqs (f v) where
  answered ha := by
    obtain ⟨h1, h2⟩ := h.answered ha
    exact ⟨h1, by simp [PortRun.map, h2, Except.map]⟩
  lapsed sent q rest l hr ha hl := by
    obtain ⟨h1, h2⟩ := h.lapsed sent q rest l hr ha hl
    exact ⟨h1, by simp [PortRun.map, h2, Except.map]⟩

theorem State.Follows.andThen {run : PortRun α} {r1 r2 : List CipherRequest} {v : α} {f : α → PortRun β} {w : β}
    (h1 : s.Follows run r1 v) (h2 : s.Follows (f v) r2 w) : s.Follows (run.andThen f) (r1 ++ r2) w where
  answered ha := by
    obtain ⟨ha1, hv⟩ := h1.answered fun q hq => ha q (List.mem_append_left _ hq)
    obtain ⟨ha2, hw⟩ := h2.answered fun q hq => ha q (List.mem_append_right _ hq)
    simp [PortRun.andThen, hv, ha1, ha2, hw]
  lapsed sent q rest l hr ha hl := by
    rcases List.append_eq_append_iff.mp hr with ⟨sent', hs, hr2⟩ | ⟨tail, hr1, hq⟩
    · subst hs
      obtain ⟨hq1, hv⟩ := h1.answered fun p hp => ha p (List.mem_append_left _ hp)
      obtain ⟨hq2, hw⟩ := h2.lapsed sent' q rest l hr2 (fun p hp => ha p (List.mem_append_right _ hp)) hl
      simp [PortRun.andThen, hv, hq1, hq2, hw]
    · cases tail with
      | nil =>
        simp only [List.append_nil] at hr1
        simp only [List.nil_append] at hq
        subst hr1
        obtain ⟨hq1, hv⟩ := h1.answered ha
        obtain ⟨hq2, hw⟩ := h2.lapsed [] q rest l hq.symm (by simp) hl
        simp [PortRun.andThen, hv, hq1, hq2, hw]
      | cons p tail =>
        simp only [List.cons_append, List.cons.injEq] at hq
        obtain ⟨rfl, -⟩ := hq
        obtain ⟨hq1, hv⟩ := h1.lapsed sent q tail l hr1 ha hl
        simp [PortRun.andThen, hv, hq1]

theorem State.Follows.askAll (k : Bytes16) (xs : List Bytes16) :
    s.Follows (askAll s.cipher k xs) (xs.map fun x => ⟨k, x⟩) (xs.flatMap fun x => (encrypt k x).toList) := by
  induction xs with
  | nil => exact .done _
  | cons x xs ih =>
    have := (State.Follows.ask (s := s) k x).andThen (f := fun y => (Machine.askAll s.cipher k xs).map fun ys => y.toList ++ ys)
      (ih.map fun ys => (encrypt k x).toList ++ ys)
    simpa [Machine.askAll] using this

/-- The stream of `n` bytes, as a list. -/
def streamBytes (k : Bytes16) (idx : DWord) (n : Nat) : List Byte := (List.range n).map (streamByte k idx)

@[simp] theorem streamBytes_length (k : Bytes16) (idx : DWord) (n : Nat) : (streamBytes k idx n).length = n := by
  simp [streamBytes]

theorem byteAt_streamBytes (k : Bytes16) (idx : DWord) {n j : Nat} (h : j < n) :
    byteAt (streamBytes k idx n) j = streamByte k idx j := by
  simp [byteAt, streamBytes, List.getD, h]

theorem blocks_length (k : Bytes16) (xs : List Bytes16) : (xs.flatMap fun x => (encrypt k x).toList).length = 16 * xs.length := by
  induction xs with
  | nil => rfl
  | cons x xs ih =>
    simp only [List.flatMap_cons, List.length_append, List.length_cons, ih, (encrypt k x).size]
    omega

theorem byteAt_blocks (k : Bytes16) (xs : List Bytes16) (j : Nat) (h : j / 16 < xs.length) :
    byteAt (xs.flatMap fun x => (encrypt k x).toList) j = bufRead (encrypt k xs[j / 16]) (j % 16) := by
  induction xs generalizing j with
  | nil => simp at h
  | cons x xs ih =>
    rw [List.flatMap_cons, byteAt_append, (encrypt k x).size]
    split
    · rename_i hj
      simp [show j / 16 = 0 by omega, show j % 16 = j by omega]
    · rename_i hj
      rw [ih (j - 16) (by simp only [List.length_cons] at h; omega)]
      simp only [show j / 16 = (j - 16) / 16 + 1 by omega, List.getElem_cons_succ, show (j - 16) % 16 = j % 16 by omega]

/-- A derivation follows its requests and is worth the stream of R76. -/
theorem State.Follows.kdf (k : Bytes16) (idx : DWord) (n : Nat) :
    s.Follows (kdf s.cipher k idx n) (derivationRequests k idx n) (streamBytes k idx n) := by
  have h := (State.Follows.askAll (s := s) k (kdfInputs idx n)).map fun acc => acc.take n
  have hreq : (kdfInputs idx n).map (fun x => (⟨k, x⟩ : CipherRequest)) = derivationRequests k idx n := by
    simp [kdfInputs, derivationRequests, kdfBlocks, Config.blockLen]
  have hlen : (kdfInputs idx n).length = n / 16 + 1 := by simp [kdfInputs, kdfBlocks, Config.blockLen]
  have hval : ((kdfInputs idx n).flatMap fun x => (encrypt k x).toList).take n = streamBytes k idx n := by
    refine List.ext_getElem (by rw [List.length_take, blocks_length, hlen, streamBytes_length]; omega) fun j h1 h2 => ?_
    have hj : j < n := by simpa using h2
    have e1 := byteAt_blocks k (kdfInputs idx n) j (by omega)
    have e2 := byteAt_streamBytes k idx hj
    have hb : j < ((kdfInputs idx n).flatMap fun x => (encrypt k x).toList).length := by rw [blocks_length]; omega
    simp only [byteAt, List.getD, List.getElem?_eq_getElem hb, Option.getD_some] at e1
    simp only [byteAt, List.getD, List.getElem?_eq_getElem h2, Option.getD_some] at e2
    rw [List.getElem_take, e1, e2, streamByte]
    simp [kdfInputs]
  rw [hreq, hval] at h
  exact h

end Sys2Proof.Machine
end

