-- ==== Sys2Proof/Laws/Pad.lean ====
section
/-! SUPPORT. The nonce-to-pad conversion: the working nonce of R96 is the nonce with the low bits of its last byte
cleared, and `PADFN` follows its three requests. -/

namespace Sys2Proof.Machine

/-- "`n xor subIndex = n - subIndex`" for a divisor that is a power of two (R96). -/
theorem xor_mod_two_pow (n k : Nat) : n ^^^ (n % 2 ^ k) = 2 ^ k * (n / 2 ^ k) := by
  apply Nat.eq_of_testBit_eq
  intro i
  rw [Nat.testBit_xor, Nat.testBit_mod_two_pow, Nat.testBit_two_pow_mul, Nat.testBit_div_two_pow]
  by_cases h : i < k
  · simp [h]
  · simp [h, show k ≤ i by omega, show i - k + k = i by omega]

theorem clear_low_byte (d : Nat) (hd : d = 4 ∨ d = 2) :
    ∀ x : Byte, BitVec.ofNat 8 (d * (x.toNat / d)) = x &&& ~~~(BitVec.ofNat 8 (d - 1)) := by
  rcases hd with rfl | rfl <;> decide +kernel

theorem length_nonceBytes {b : Block} (h : b.nonceLen.toNat ≤ 16) : b.nonceBytes.length = b.nonceLen.toNat := by
  rw [Block.nonceBytes, slice_length, b.nonce.size]
  omega

theorem byteAt_nonceBytes (b : Block) (i : Nat) :
    byteAt b.nonceBytes i = if i < b.nonceLen.toNat then bufRead b.nonce i else 0#8 := by
  rw [Block.nonceBytes, byteAt_slice]
  simp

/-- A non-empty byte string is all but its last byte, then its last byte. -/
theorem eq_slice_append_last (s : List Byte) (m : Nat) (h : s.length = m + 1) : s = slice s 0 m ++ [byteAt s m] := by
  refine List.ext_getElem (by simp [slice]; omega) fun i h1 h2 => ?_
  by_cases hi : i < m
  · rw [List.getElem_append_left (by simp [slice]; omega)]
    simp [slice]
  · have : i = m := by omega
    subst this
    rw [List.getElem_append_right (by simp [slice])]
    simp [slice, byteAt, List.getD, h1]

/-- Clearing the sub-index touches the last byte only (R96). -/
theorem enc_clear (s : List Byte) (d k : Nat) (hd : d = 2 ^ k) (hk : d = 4 ∨ d = 2) (hs : s.length = 8) :
    enc 8 (be s ^^^ (be s % d)) = slice s 0 7 ++ [byteAt s 7 &&& ~~~(BitVec.ofNat 8 (d - 1))] := by
  have hsplit := eq_slice_append_last s 7 (by omega)
  have hlen : (slice s 0 7).length = 7 := by rw [slice_length]; omega
  have hbe : be s = be (slice s 0 7) * 256 + (byteAt s 7).toNat := by
    conv_lhs => rw [hsplit, be_append]
    simp [be]
  have hx := (byteAt s 7).isLt
  rw [hd, xor_mod_two_pow, ← hd, enc_succ]
  have h1 : d * (be s / d) / 256 = be (slice s 0 7) := by rcases hk with rfl | rfl <;> omega
  have h2 : BitVec.ofNat 8 (d * (be s / d)) = BitVec.ofNat 8 (d * ((byteAt s 7).toNat / d)) := by
    apply BitVec.eq_of_toNat_eq
    simp only [BitVec.toNat_ofNat]
    rcases hk with rfl | rfl <;> omega
  have hfirst := enc_be (slice s 0 7)
  rw [hlen] at hfirst
  rw [h1, h2, clear_low_byte d hk, hfirst]

theorem be_mod_last (s : List Byte) (d : Nat) (hk : d = 4 ∨ d = 2) (hs : s.length = 8) :
    be s % d = (byteAt s 7).toNat % d := by
  have hsplit := eq_slice_append_last s 7 (by omega)
  have hbe : be s = be (slice s 0 7) * 256 + (byteAt s 7).toNat := by
    conv_lhs => rw [hsplit, be_append]
    simp [be]
  rcases hk with rfl | rfl <;> omega

variable {b : Block}

theorem nonceLen_of_short (h : b.nonceLen = 8#32) : b.nonceLen.toNat = 8 := by rw [h]; rfl

theorem subIndex_eq (ht : tagIsLegal b.taglen) (hn : nonceIsLegal b.taglen b.nonceLen) :
    subIndex b.taglen b.nonceBytes = padSubIndex b := by
  rcases ht with h | h | h | h
  · have h8 : b.nonceLen = 8#32 := by simpa [nonceIsLegal, h] using hn
    have e := nonceLen_of_short h8
    have : subIndex b.taglen b.nonceBytes = be b.nonceBytes % 4 := by simp [subIndex, shortTag, padDivisor, tagBytes, h]
    rw [this, be_mod_last _ 4 (.inl rfl) (by rw [length_nonceBytes (by omega), e]), byteAt_nonceBytes, e]
    simp [padSubIndex, h]
  · have h8 : b.nonceLen = 8#32 := by simpa [nonceIsLegal, h] using hn
    have e := nonceLen_of_short h8
    have : subIndex b.taglen b.nonceBytes = be b.nonceBytes % 2 := by simp [subIndex, shortTag, padDivisor, tagBytes, h]
    rw [this, be_mod_last _ 2 (.inr rfl) (by rw [length_nonceBytes (by omega), e]), byteAt_nonceBytes, e]
    simp [padSubIndex, h]
  · simp [subIndex, shortTag, padSubIndex, h]
  · simp [subIndex, shortTag, padSubIndex, h]

theorem zeroPadded_clear (hn : b.nonceLen = 8#32) (x : Byte) :
    zeroPadded 16 (slice b.nonceBytes 0 7 ++ [byteAt b.nonceBytes 7 &&& ~~~x]) = shortPadInput b.nonce x := by
  have e := nonceLen_of_short hn
  refine buf_ext fun i hi => ?_
  have hl : (slice b.nonceBytes 0 7).length = 7 := by rw [slice_length, length_nonceBytes (by omega)]; omega
  rw [bufRead_zeroPadded _ hi, byteAt_append, hl, shortPadInput, bufRead_bufOf _ hi]
  split
  · rw [byteAt_slice, if_pos ‹_›, Nat.zero_add, byteAt_nonceBytes, if_pos (by omega)]
  · split
    · subst i
      rw [byteAt_nonceBytes, if_pos (by omega)]
      rfl
    · exact byteAt_of_length_le (by simp; omega)

theorem paddedNonce_eq (ht : tagIsLegal b.taglen) (hn : nonceIsLegal b.taglen b.nonceLen) :
    paddedNonce b.taglen b.nonceBytes = padInput b := by
  have hlong (h1 : shortTag b.taglen = false) (h2 : padInput b = longPadInput b.nonce b.nonceLen.toNat) :
      paddedNonce b.taglen b.nonceBytes = padInput b := by
    rw [h2]
    refine buf_ext fun i hi => ?_
    rw [paddedNonce, workNonce, h1, if_neg (by simp), bufRead_zeroPadded _ hi, byteAt_nonceBytes, longPadInput,
      bufRead_bufOf _ hi]
  rcases ht with h | h | h | h
  · have h8 : b.nonceLen = 8#32 := by simpa [nonceIsLegal, h] using hn
    have e := nonceLen_of_short h8
    have hw : workNonce b.taglen b.nonceBytes = enc 8 (be b.nonceBytes ^^^ (be b.nonceBytes % 4)) := by
      simp [workNonce, subIndex, shortTag, padDivisor, tagBytes, h]
    rw [paddedNonce, hw, enc_clear _ 4 2 rfl (.inl rfl) (by rw [length_nonceBytes (by omega), e]), zeroPadded_clear h8]
    simp [padInput, h]
  · have h8 : b.nonceLen = 8#32 := by simpa [nonceIsLegal, h] using hn
    have e := nonceLen_of_short h8
    have hw : workNonce b.taglen b.nonceBytes = enc 8 (be b.nonceBytes ^^^ (be b.nonceBytes % 2)) := by
      simp [workNonce, subIndex, shortTag, padDivisor, tagBytes, h]
    rw [paddedNonce, hw, enc_clear _ 2 1 rfl (.inr rfl) (by rw [length_nonceBytes (by omega), e]), zeroPadded_clear h8]
    simp [padInput, h]
  · exact hlong (by simp [shortTag, h]) (by simp [padInput, h])
  · exact hlong (by simp [shortTag, h]) (by simp [padInput, h])

theorem zeroPadded_stream (k : Bytes16) : zeroPadded 16 (streamBytes k 0#64 16) = padKey k := by
  refine buf_ext fun i hi => ?_
  rw [bufRead_zeroPadded _ hi, byteAt_streamBytes _ _ hi, padKey, bufRead_bufOf _ hi]

/-- The output block of `DPAD` (R96 step 3). -/
def padOutput (b : Block) : Bytes16 := encrypt (padKey b.key) (padInput b)

/-- The pad (R96 step 4). -/
def padBytes (b : Block) : List Byte := slice (padOutput b).toList (padSubIndex b * tagBytes b.taglen) (tagBytes b.taglen)

/-- `PADFN` follows its three requests and is worth the slice of R96. -/
theorem State.Follows.padFn {s : State} (ht : tagIsLegal s.block.taglen) (hn : nonceIsLegal s.block.taglen s.block.nonceLen) :
    s.Follows (padFn s.cipher s.block.key s.block.taglen s.block.nonceBytes) (commandRequests .dpad s.block)
      (padBytes s.block) := by
  have h1 := State.Follows.kdf (s := s) s.block.key Config.idxPad Config.padKeyLen
  have h2 := State.Follows.ask (s := s) (zeroPadded 16 (streamBytes s.block.key Config.idxPad Config.padKeyLen))
    (paddedNonce s.block.taglen s.block.nonceBytes)
  have h := (h1.andThen (f := fun k2 => Machine.ask s.cipher (zeroPadded 16 k2) (paddedNonce s.block.taglen s.block.nonceBytes)) h2).map
    (padSlice s.block.taglen s.block.nonceBytes)
  have hk : zeroPadded 16 (streamBytes s.block.key Config.idxPad Config.padKeyLen) = padKey s.block.key := zeroPadded_stream _
  rw [hk, paddedNonce_eq ht hn] at h
  simp only [padSlice, subIndex_eq ht hn] at h
  rw [Machine.padFn, padBlock, paddedNonce_eq ht hn]
  exact h

end Sys2Proof.Machine
end

