-- ==== Sys2Proof/Laws/State.lean ====
section
/-! SUPPORT. One lemma for each field of each named update of the state, true by unfolding, so that no later proof
unfolds an update. -/

namespace Sys2Proof.Machine

/-! ## Taking a fault writes `DONE`, `FAULT` and `ERR` (R119) -/

@[simp] theorem Block.raise_done (b : Block) (c : ErrCode) : (b.raise c).done = false := rfl
@[simp] theorem Block.raise_fault (b : Block) (c : ErrCode) : (b.raise c).fault = true := rfl
@[simp] theorem Block.raise_err (b : Block) (c : ErrCode) : (b.raise c).err = c := rfl
@[simp] theorem Block.raise_key (b : Block) (c : ErrCode) : (b.raise c).key = b.key := rfl
@[simp] theorem Block.raise_keyw (b : Block) (c : ErrCode) : (b.raise c).keyw = b.keyw := rfl
@[simp] theorem Block.raise_taglen (b : Block) (c : ErrCode) : (b.raise c).taglen = b.taglen := rfl
@[simp] theorem Block.raise_nonce (b : Block) (c : ErrCode) : (b.raise c).nonce = b.nonce := rfl
@[simp] theorem Block.raise_nonceLen (b : Block) (c : ErrCode) : (b.raise c).nonceLen = b.nonceLen := rfl
@[simp] theorem Block.raise_stream (b : Block) (c : ErrCode) : (b.raise c).stream = b.stream := rfl
@[simp] theorem Block.raise_len (b : Block) (c : ErrCode) : (b.raise c).len = b.len := rfl
@[simp] theorem Block.raise_a (b : Block) (c : ErrCode) : (b.raise c).a = b.a := rfl
@[simp] theorem Block.raise_b (b : Block) (c : ErrCode) : (b.raise c).b = b.b := rfl
@[simp] theorem Block.raise_r (b : Block) (c : ErrCode) : (b.raise c).r = b.r := rfl
@[simp] theorem Block.raise_obuf (b : Block) (c : ErrCode) : (b.raise c).obuf = b.obuf := rfl
@[simp] theorem Block.raise_olen (b : Block) (c : ErrCode) : (b.raise c).olen = b.olen := rfl
@[simp] theorem Block.raise_l1k (b : Block) (c : ErrCode) : (b.raise c).l1k = b.l1k := rfl
@[simp] theorem Block.raise_l2k (b : Block) (c : ErrCode) : (b.raise c).l2k = b.l2k := rfl
@[simp] theorem Block.raise_l3ak (b : Block) (c : ErrCode) : (b.raise c).l3ak = b.l3ak := rfl
@[simp] theorem Block.raise_l3bk (b : Block) (c : ErrCode) : (b.raise c).l3bk = b.l3bk := rfl
@[simp] theorem Block.raise_l1i (b : Block) (c : ErrCode) : (b.raise c).l1i = b.l1i := rfl
@[simp] theorem Block.raise_l2i (b : Block) (c : ErrCode) : (b.raise c).l2i = b.l2i := rfl
@[simp] theorem Block.raise_l3ai (b : Block) (c : ErrCode) : (b.raise c).l3ai = b.l3ai := rfl
@[simp] theorem Block.raise_l3bi (b : Block) (c : ErrCode) : (b.raise c).l3bi = b.l3bi := rfl
@[simp] theorem Block.raise_pad (b : Block) (c : ErrCode) : (b.raise c).pad = b.pad := rfl
@[simp] theorem Block.raise_padlen (b : Block) (c : ErrCode) : (b.raise c).padlen = b.padlen := rfl

@[simp] theorem State.raise_block (s : State) (c : ErrCode) : (s.raise c).block = s.block.raise c := rfl
@[simp] theorem State.raise_accesses (s : State) (c : ErrCode) : (s.raise c).accesses = s.accesses := rfl
@[simp] theorem State.raise_replies (s : State) (c : ErrCode) : (s.raise c).replies = s.replies := rfl
@[simp] theorem State.raise_requests (s : State) (c : ErrCode) : (s.raise c).requests = s.requests := rfl
@[simp] theorem State.raise_lapses (s : State) (c : ErrCode) : (s.raise c).lapses = s.lapses := rfl

/-! ## Success writes `DONE` (R26) -/

@[simp] theorem State.complete_block (s : State) (b : Block) : (s.complete b).block = { b with done := true } := rfl
@[simp] theorem State.complete_accesses (s : State) (b : Block) : (s.complete b).accesses = s.accesses := rfl
@[simp] theorem State.complete_replies (s : State) (b : Block) : (s.complete b).replies = s.replies := rfl
@[simp] theorem State.complete_requests (s : State) (b : Block) : (s.complete b).requests = s.requests := rfl
@[simp] theorem State.complete_lapses (s : State) (b : Block) : (s.complete b).lapses = s.lapses := rfl

/-! ## The resets write the block alone (R32) -/

@[simp] theorem State.softReset_block (s : State) : s.softReset.block = { Block.reset with done := true } := rfl
@[simp] theorem State.softReset_accesses (s : State) : s.softReset.accesses = s.accesses := rfl
@[simp] theorem State.softReset_replies (s : State) : s.softReset.replies = s.replies := rfl
@[simp] theorem State.softReset_requests (s : State) : s.softReset.requests = s.requests := rfl
@[simp] theorem State.softReset_lapses (s : State) : s.softReset.lapses = s.lapses := rfl
@[simp] theorem State.hardReset_block (s : State) : s.hardReset.block = Block.reset := rfl
@[simp] theorem State.hardReset_accesses (s : State) : s.hardReset.accesses = s.accesses := rfl
@[simp] theorem State.hardReset_replies (s : State) : s.hardReset.replies = s.replies := rfl
@[simp] theorem State.hardReset_requests (s : State) : s.hardReset.requests = s.requests := rfl
@[simp] theorem State.hardReset_lapses (s : State) : s.hardReset.lapses = s.lapses := rfl

/-! ## The results of each derivation -/

@[simp] theorem writeObuf_key (st : List Byte) (b : Block) : (writeObuf st b).key = b.key := rfl
@[simp] theorem writeObuf_keyw (st : List Byte) (b : Block) : (writeObuf st b).keyw = b.keyw := rfl
@[simp] theorem writeObuf_taglen (st : List Byte) (b : Block) : (writeObuf st b).taglen = b.taglen := rfl
@[simp] theorem writeObuf_nonce (st : List Byte) (b : Block) : (writeObuf st b).nonce = b.nonce := rfl
@[simp] theorem writeObuf_nonceLen (st : List Byte) (b : Block) : (writeObuf st b).nonceLen = b.nonceLen := rfl
@[simp] theorem writeObuf_stream (st : List Byte) (b : Block) : (writeObuf st b).stream = b.stream := rfl
@[simp] theorem writeObuf_len (st : List Byte) (b : Block) : (writeObuf st b).len = b.len := rfl
@[simp] theorem writeObuf_a (st : List Byte) (b : Block) : (writeObuf st b).a = b.a := rfl
@[simp] theorem writeObuf_b (st : List Byte) (b : Block) : (writeObuf st b).b = b.b := rfl
@[simp] theorem writeObuf_r (st : List Byte) (b : Block) : (writeObuf st b).r = b.r := rfl
@[simp] theorem writeObuf_obuf (st : List Byte) (b : Block) : (writeObuf st b).obuf = zeroPadded 1072 st := rfl
@[simp] theorem writeObuf_olen (st : List Byte) (b : Block) : (writeObuf st b).olen = b.len := rfl
@[simp] theorem writeObuf_l1k (st : List Byte) (b : Block) : (writeObuf st b).l1k = b.l1k := rfl
@[simp] theorem writeObuf_l2k (st : List Byte) (b : Block) : (writeObuf st b).l2k = b.l2k := rfl
@[simp] theorem writeObuf_l3ak (st : List Byte) (b : Block) : (writeObuf st b).l3ak = b.l3ak := rfl
@[simp] theorem writeObuf_l3bk (st : List Byte) (b : Block) : (writeObuf st b).l3bk = b.l3bk := rfl
@[simp] theorem writeObuf_l1i (st : List Byte) (b : Block) : (writeObuf st b).l1i = b.l1i := rfl
@[simp] theorem writeObuf_l2i (st : List Byte) (b : Block) : (writeObuf st b).l2i = b.l2i := rfl
@[simp] theorem writeObuf_l3ai (st : List Byte) (b : Block) : (writeObuf st b).l3ai = b.l3ai := rfl
@[simp] theorem writeObuf_l3bi (st : List Byte) (b : Block) : (writeObuf st b).l3bi = b.l3bi := rfl
@[simp] theorem writeObuf_pad (st : List Byte) (b : Block) : (writeObuf st b).pad = b.pad := rfl
@[simp] theorem writeObuf_padlen (st : List Byte) (b : Block) : (writeObuf st b).padlen = b.padlen := rfl
@[simp] theorem writeObuf_done (st : List Byte) (b : Block) : (writeObuf st b).done = b.done := rfl
@[simp] theorem writeObuf_fault (st : List Byte) (b : Block) : (writeObuf st b).fault = b.fault := rfl
@[simp] theorem writeObuf_err (st : List Byte) (b : Block) : (writeObuf st b).err = b.err := rfl

@[simp] theorem writeL1_key (i : Nat) (st : List Byte) (b : Block) : (writeL1 i st b).key = b.key := rfl
@[simp] theorem writeL1_keyw (i : Nat) (st : List Byte) (b : Block) : (writeL1 i st b).keyw = b.keyw := rfl
@[simp] theorem writeL1_taglen (i : Nat) (st : List Byte) (b : Block) : (writeL1 i st b).taglen = b.taglen := rfl
@[simp] theorem writeL1_nonce (i : Nat) (st : List Byte) (b : Block) : (writeL1 i st b).nonce = b.nonce := rfl
@[simp] theorem writeL1_nonceLen (i : Nat) (st : List Byte) (b : Block) : (writeL1 i st b).nonceLen = b.nonceLen := rfl
@[simp] theorem writeL1_stream (i : Nat) (st : List Byte) (b : Block) : (writeL1 i st b).stream = b.stream := rfl
@[simp] theorem writeL1_len (i : Nat) (st : List Byte) (b : Block) : (writeL1 i st b).len = b.len := rfl
@[simp] theorem writeL1_a (i : Nat) (st : List Byte) (b : Block) : (writeL1 i st b).a = b.a := rfl
@[simp] theorem writeL1_b (i : Nat) (st : List Byte) (b : Block) : (writeL1 i st b).b = b.b := rfl
@[simp] theorem writeL1_r (i : Nat) (st : List Byte) (b : Block) : (writeL1 i st b).r = b.r := rfl
@[simp] theorem writeL1_obuf (i : Nat) (st : List Byte) (b : Block) : (writeL1 i st b).obuf = b.obuf := rfl
@[simp] theorem writeL1_olen (i : Nat) (st : List Byte) (b : Block) : (writeL1 i st b).olen = b.olen := rfl
@[simp] theorem writeL1_l1k (i : Nat) (st : List Byte) (b : Block) :
    (writeL1 i st b).l1k = bank 268 (l1Valid i) (l1Entry st) := rfl
@[simp] theorem writeL1_l2k (i : Nat) (st : List Byte) (b : Block) : (writeL1 i st b).l2k = b.l2k := rfl
@[simp] theorem writeL1_l3ak (i : Nat) (st : List Byte) (b : Block) : (writeL1 i st b).l3ak = b.l3ak := rfl
@[simp] theorem writeL1_l3bk (i : Nat) (st : List Byte) (b : Block) : (writeL1 i st b).l3bk = b.l3bk := rfl
@[simp] theorem writeL1_l1i (i : Nat) (st : List Byte) (b : Block) : (writeL1 i st b).l1i = BitVec.ofNat 3 i := rfl
@[simp] theorem writeL1_l2i (i : Nat) (st : List Byte) (b : Block) : (writeL1 i st b).l2i = b.l2i := rfl
@[simp] theorem writeL1_l3ai (i : Nat) (st : List Byte) (b : Block) : (writeL1 i st b).l3ai = b.l3ai := rfl
@[simp] theorem writeL1_l3bi (i : Nat) (st : List Byte) (b : Block) : (writeL1 i st b).l3bi = b.l3bi := rfl
@[simp] theorem writeL1_pad (i : Nat) (st : List Byte) (b : Block) : (writeL1 i st b).pad = b.pad := rfl
@[simp] theorem writeL1_padlen (i : Nat) (st : List Byte) (b : Block) : (writeL1 i st b).padlen = b.padlen := rfl
@[simp] theorem writeL1_done (i : Nat) (st : List Byte) (b : Block) : (writeL1 i st b).done = b.done := rfl
@[simp] theorem writeL1_fault (i : Nat) (st : List Byte) (b : Block) : (writeL1 i st b).fault = b.fault := rfl
@[simp] theorem writeL1_err (i : Nat) (st : List Byte) (b : Block) : (writeL1 i st b).err = b.err := rfl

@[simp] theorem writeL2_key (i : Nat) (st : List Byte) (b : Block) : (writeL2 i st b).key = b.key := rfl
@[simp] theorem writeL2_keyw (i : Nat) (st : List Byte) (b : Block) : (writeL2 i st b).keyw = b.keyw := rfl
@[simp] theorem writeL2_taglen (i : Nat) (st : List Byte) (b : Block) : (writeL2 i st b).taglen = b.taglen := rfl
@[simp] theorem writeL2_nonce (i : Nat) (st : List Byte) (b : Block) : (writeL2 i st b).nonce = b.nonce := rfl
@[simp] theorem writeL2_nonceLen (i : Nat) (st : List Byte) (b : Block) : (writeL2 i st b).nonceLen = b.nonceLen := rfl
@[simp] theorem writeL2_stream (i : Nat) (st : List Byte) (b : Block) : (writeL2 i st b).stream = b.stream := rfl
@[simp] theorem writeL2_len (i : Nat) (st : List Byte) (b : Block) : (writeL2 i st b).len = b.len := rfl
@[simp] theorem writeL2_a (i : Nat) (st : List Byte) (b : Block) : (writeL2 i st b).a = b.a := rfl
@[simp] theorem writeL2_b (i : Nat) (st : List Byte) (b : Block) : (writeL2 i st b).b = b.b := rfl
@[simp] theorem writeL2_r (i : Nat) (st : List Byte) (b : Block) : (writeL2 i st b).r = b.r := rfl
@[simp] theorem writeL2_obuf (i : Nat) (st : List Byte) (b : Block) : (writeL2 i st b).obuf = b.obuf := rfl
@[simp] theorem writeL2_olen (i : Nat) (st : List Byte) (b : Block) : (writeL2 i st b).olen = b.olen := rfl
@[simp] theorem writeL2_l1k (i : Nat) (st : List Byte) (b : Block) : (writeL2 i st b).l1k = b.l1k := rfl
@[simp] theorem writeL2_l2k (i : Nat) (st : List Byte) (b : Block) :
    (writeL2 i st b).l2k = bank 12 (l2Valid i) (l2Entry st) := rfl
@[simp] theorem writeL2_l3ak (i : Nat) (st : List Byte) (b : Block) : (writeL2 i st b).l3ak = b.l3ak := rfl
@[simp] theorem writeL2_l3bk (i : Nat) (st : List Byte) (b : Block) : (writeL2 i st b).l3bk = b.l3bk := rfl
@[simp] theorem writeL2_l1i (i : Nat) (st : List Byte) (b : Block) : (writeL2 i st b).l1i = b.l1i := rfl
@[simp] theorem writeL2_l2i (i : Nat) (st : List Byte) (b : Block) : (writeL2 i st b).l2i = BitVec.ofNat 3 i := rfl
@[simp] theorem writeL2_l3ai (i : Nat) (st : List Byte) (b : Block) : (writeL2 i st b).l3ai = b.l3ai := rfl
@[simp] theorem writeL2_l3bi (i : Nat) (st : List Byte) (b : Block) : (writeL2 i st b).l3bi = b.l3bi := rfl
@[simp] theorem writeL2_pad (i : Nat) (st : List Byte) (b : Block) : (writeL2 i st b).pad = b.pad := rfl
@[simp] theorem writeL2_padlen (i : Nat) (st : List Byte) (b : Block) : (writeL2 i st b).padlen = b.padlen := rfl
@[simp] theorem writeL2_done (i : Nat) (st : List Byte) (b : Block) : (writeL2 i st b).done = b.done := rfl
@[simp] theorem writeL2_fault (i : Nat) (st : List Byte) (b : Block) : (writeL2 i st b).fault = b.fault := rfl
@[simp] theorem writeL2_err (i : Nat) (st : List Byte) (b : Block) : (writeL2 i st b).err = b.err := rfl

@[simp] theorem writeL3a_key (i : Nat) (st : List Byte) (b : Block) : (writeL3a i st b).key = b.key := rfl
@[simp] theorem writeL3a_keyw (i : Nat) (st : List Byte) (b : Block) : (writeL3a i st b).keyw = b.keyw := rfl
@[simp] theorem writeL3a_taglen (i : Nat) (st : List Byte) (b : Block) : (writeL3a i st b).taglen = b.taglen := rfl
@[simp] theorem writeL3a_nonce (i : Nat) (st : List Byte) (b : Block) : (writeL3a i st b).nonce = b.nonce := rfl
@[simp] theorem writeL3a_nonceLen (i : Nat) (st : List Byte) (b : Block) :
    (writeL3a i st b).nonceLen = b.nonceLen := rfl
@[simp] theorem writeL3a_stream (i : Nat) (st : List Byte) (b : Block) : (writeL3a i st b).stream = b.stream := rfl
@[simp] theorem writeL3a_len (i : Nat) (st : List Byte) (b : Block) : (writeL3a i st b).len = b.len := rfl
@[simp] theorem writeL3a_a (i : Nat) (st : List Byte) (b : Block) : (writeL3a i st b).a = b.a := rfl
@[simp] theorem writeL3a_b (i : Nat) (st : List Byte) (b : Block) : (writeL3a i st b).b = b.b := rfl
@[simp] theorem writeL3a_r (i : Nat) (st : List Byte) (b : Block) : (writeL3a i st b).r = b.r := rfl
@[simp] theorem writeL3a_obuf (i : Nat) (st : List Byte) (b : Block) : (writeL3a i st b).obuf = b.obuf := rfl
@[simp] theorem writeL3a_olen (i : Nat) (st : List Byte) (b : Block) : (writeL3a i st b).olen = b.olen := rfl
@[simp] theorem writeL3a_l1k (i : Nat) (st : List Byte) (b : Block) : (writeL3a i st b).l1k = b.l1k := rfl
@[simp] theorem writeL3a_l2k (i : Nat) (st : List Byte) (b : Block) : (writeL3a i st b).l2k = b.l2k := rfl
@[simp] theorem writeL3a_l3ak (i : Nat) (st : List Byte) (b : Block) :
    (writeL3a i st b).l3ak = bank 32 (l3aValid i) (l3aEntry st) := rfl
@[simp] theorem writeL3a_l3bk (i : Nat) (st : List Byte) (b : Block) : (writeL3a i st b).l3bk = b.l3bk := rfl
@[simp] theorem writeL3a_l1i (i : Nat) (st : List Byte) (b : Block) : (writeL3a i st b).l1i = b.l1i := rfl
@[simp] theorem writeL3a_l2i (i : Nat) (st : List Byte) (b : Block) : (writeL3a i st b).l2i = b.l2i := rfl
@[simp] theorem writeL3a_l3ai (i : Nat) (st : List Byte) (b : Block) : (writeL3a i st b).l3ai = BitVec.ofNat 3 i := rfl
@[simp] theorem writeL3a_l3bi (i : Nat) (st : List Byte) (b : Block) : (writeL3a i st b).l3bi = b.l3bi := rfl
@[simp] theorem writeL3a_pad (i : Nat) (st : List Byte) (b : Block) : (writeL3a i st b).pad = b.pad := rfl
@[simp] theorem writeL3a_padlen (i : Nat) (st : List Byte) (b : Block) : (writeL3a i st b).padlen = b.padlen := rfl
@[simp] theorem writeL3a_done (i : Nat) (st : List Byte) (b : Block) : (writeL3a i st b).done = b.done := rfl
@[simp] theorem writeL3a_fault (i : Nat) (st : List Byte) (b : Block) : (writeL3a i st b).fault = b.fault := rfl
@[simp] theorem writeL3a_err (i : Nat) (st : List Byte) (b : Block) : (writeL3a i st b).err = b.err := rfl

@[simp] theorem writeL3b_key (i : Nat) (st : List Byte) (b : Block) : (writeL3b i st b).key = b.key := rfl
@[simp] theorem writeL3b_keyw (i : Nat) (st : List Byte) (b : Block) : (writeL3b i st b).keyw = b.keyw := rfl
@[simp] theorem writeL3b_taglen (i : Nat) (st : List Byte) (b : Block) : (writeL3b i st b).taglen = b.taglen := rfl
@[simp] theorem writeL3b_nonce (i : Nat) (st : List Byte) (b : Block) : (writeL3b i st b).nonce = b.nonce := rfl
@[simp] theorem writeL3b_nonceLen (i : Nat) (st : List Byte) (b : Block) :
    (writeL3b i st b).nonceLen = b.nonceLen := rfl
@[simp] theorem writeL3b_stream (i : Nat) (st : List Byte) (b : Block) : (writeL3b i st b).stream = b.stream := rfl
@[simp] theorem writeL3b_len (i : Nat) (st : List Byte) (b : Block) : (writeL3b i st b).len = b.len := rfl
@[simp] theorem writeL3b_a (i : Nat) (st : List Byte) (b : Block) : (writeL3b i st b).a = b.a := rfl
@[simp] theorem writeL3b_b (i : Nat) (st : List Byte) (b : Block) : (writeL3b i st b).b = b.b := rfl
@[simp] theorem writeL3b_r (i : Nat) (st : List Byte) (b : Block) : (writeL3b i st b).r = b.r := rfl
@[simp] theorem writeL3b_obuf (i : Nat) (st : List Byte) (b : Block) : (writeL3b i st b).obuf = b.obuf := rfl
@[simp] theorem writeL3b_olen (i : Nat) (st : List Byte) (b : Block) : (writeL3b i st b).olen = b.olen := rfl
@[simp] theorem writeL3b_l1k (i : Nat) (st : List Byte) (b : Block) : (writeL3b i st b).l1k = b.l1k := rfl
@[simp] theorem writeL3b_l2k (i : Nat) (st : List Byte) (b : Block) : (writeL3b i st b).l2k = b.l2k := rfl
@[simp] theorem writeL3b_l3ak (i : Nat) (st : List Byte) (b : Block) : (writeL3b i st b).l3ak = b.l3ak := rfl
@[simp] theorem writeL3b_l3bk (i : Nat) (st : List Byte) (b : Block) :
    (writeL3b i st b).l3bk = bank 4 (l3bValid i) (l3bEntry st) := rfl
@[simp] theorem writeL3b_l1i (i : Nat) (st : List Byte) (b : Block) : (writeL3b i st b).l1i = b.l1i := rfl
@[simp] theorem writeL3b_l2i (i : Nat) (st : List Byte) (b : Block) : (writeL3b i st b).l2i = b.l2i := rfl
@[simp] theorem writeL3b_l3ai (i : Nat) (st : List Byte) (b : Block) : (writeL3b i st b).l3ai = b.l3ai := rfl
@[simp] theorem writeL3b_l3bi (i : Nat) (st : List Byte) (b : Block) : (writeL3b i st b).l3bi = BitVec.ofNat 3 i := rfl
@[simp] theorem writeL3b_pad (i : Nat) (st : List Byte) (b : Block) : (writeL3b i st b).pad = b.pad := rfl
@[simp] theorem writeL3b_padlen (i : Nat) (st : List Byte) (b : Block) : (writeL3b i st b).padlen = b.padlen := rfl
@[simp] theorem writeL3b_done (i : Nat) (st : List Byte) (b : Block) : (writeL3b i st b).done = b.done := rfl
@[simp] theorem writeL3b_fault (i : Nat) (st : List Byte) (b : Block) : (writeL3b i st b).fault = b.fault := rfl
@[simp] theorem writeL3b_err (i : Nat) (st : List Byte) (b : Block) : (writeL3b i st b).err = b.err := rfl

@[simp] theorem writePad_key (p : List Byte) (b : Block) : (writePad p b).key = b.key := rfl
@[simp] theorem writePad_keyw (p : List Byte) (b : Block) : (writePad p b).keyw = b.keyw := rfl
@[simp] theorem writePad_taglen (p : List Byte) (b : Block) : (writePad p b).taglen = b.taglen := rfl
@[simp] theorem writePad_nonce (p : List Byte) (b : Block) : (writePad p b).nonce = b.nonce := rfl
@[simp] theorem writePad_nonceLen (p : List Byte) (b : Block) : (writePad p b).nonceLen = b.nonceLen := rfl
@[simp] theorem writePad_stream (p : List Byte) (b : Block) : (writePad p b).stream = b.stream := rfl
@[simp] theorem writePad_len (p : List Byte) (b : Block) : (writePad p b).len = b.len := rfl
@[simp] theorem writePad_a (p : List Byte) (b : Block) : (writePad p b).a = b.a := rfl
@[simp] theorem writePad_b (p : List Byte) (b : Block) : (writePad p b).b = b.b := rfl
@[simp] theorem writePad_r (p : List Byte) (b : Block) : (writePad p b).r = b.r := rfl
@[simp] theorem writePad_obuf (p : List Byte) (b : Block) : (writePad p b).obuf = b.obuf := rfl
@[simp] theorem writePad_olen (p : List Byte) (b : Block) : (writePad p b).olen = b.olen := rfl
@[simp] theorem writePad_l1k (p : List Byte) (b : Block) : (writePad p b).l1k = b.l1k := rfl
@[simp] theorem writePad_l2k (p : List Byte) (b : Block) : (writePad p b).l2k = b.l2k := rfl
@[simp] theorem writePad_l3ak (p : List Byte) (b : Block) : (writePad p b).l3ak = b.l3ak := rfl
@[simp] theorem writePad_l3bk (p : List Byte) (b : Block) : (writePad p b).l3bk = b.l3bk := rfl
@[simp] theorem writePad_l1i (p : List Byte) (b : Block) : (writePad p b).l1i = b.l1i := rfl
@[simp] theorem writePad_l2i (p : List Byte) (b : Block) : (writePad p b).l2i = b.l2i := rfl
@[simp] theorem writePad_l3ai (p : List Byte) (b : Block) : (writePad p b).l3ai = b.l3ai := rfl
@[simp] theorem writePad_l3bi (p : List Byte) (b : Block) : (writePad p b).l3bi = b.l3bi := rfl
@[simp] theorem writePad_pad (p : List Byte) (b : Block) : (writePad p b).pad = zeroPadded 16 p := rfl
@[simp] theorem writePad_padlen (p : List Byte) (b : Block) :
    (writePad p b).padlen = BitVec.ofNat 32 (tagBytes b.taglen) := rfl
@[simp] theorem writePad_done (p : List Byte) (b : Block) : (writePad p b).done = b.done := rfl
@[simp] theorem writePad_fault (p : List Byte) (b : Block) : (writePad p b).fault = b.fault := rfl
@[simp] theorem writePad_err (p : List Byte) (b : Block) : (writePad p b).err = b.err := rfl

end Sys2Proof.Machine
end

