-- ==== Sys2Proof/Laws/Exec.lean ====
section
/-! SUPPORT. What a command can do, said once: ignored, a fault of a register check, a lapse at the cipher port, or
the results of its rule. Every later proof about `exec` cites these lemmas instead of unfolding the meanings. -/

namespace Sys2Proof.Machine

variable {α : Type} {s t : State} {i : Instr}

/-! ## The checks, as propositions -/

theorem keyLoaded_iff {b : Block} : b.keyLoaded = true ↔ keyIsLoaded b := by simp [Block.keyLoaded, keyIsLoaded]

theorem tagLegal_iff {t : Word} : tagLegal t = true ↔ tagIsLegal t := by simp [tagLegal, tagIsLegal, or_assoc]

theorem lenLegal_iff {n : Word} : lenLegal n = true ↔ lenIsLegal n := decide_eq_true_iff

theorem nonceLegal_iff {t n : Word} (ht : tagIsLegal t) : nonceLegal t n = true ↔ nonceIsLegal t n := by
  have hlong : decide (1 ≤ n.toNat ∧ n.toNat ≤ Config.nonceMax) = true ↔ 1 ≤ n.toNat ∧ n.toNat ≤ 16 := decide_eq_true_iff
  rcases ht with rfl | rfl | rfl | rfl
  · simp [nonceLegal, nonceIsLegal, shortTag]
  · simp [nonceLegal, nonceIsLegal, shortTag]
  · simpa [nonceLegal, nonceIsLegal, shortTag] using hlong
  · simpa [nonceLegal, nonceIsLegal, shortTag] using hlong

theorem iters_range {t : Word} (ht : tagIsLegal t) : 1 ≤ iters t ∧ iters t ≤ 4 := by
  rcases ht with rfl | rfl | rfl | rfl <;> simp [iters]

theorem tagBytes_eq {t : Word} (ht : tagIsLegal t) : tagBytes t = 4 * iters t := by
  rcases ht with rfl | rfl | rfl | rfl <;> simp [iters, tagBytes]

/-! ## The shared operations -/

theorem State.unlessFaulted_of_fault {c : Result} (h : s.block.fault = true) : s.unlessFaulted c = .next s := by
  simp [State.unlessFaulted, h]

theorem State.unlessFaulted_of_clear {c : Result} (h : s.block.fault = false) : s.unlessFaulted c = c := by
  simp [State.unlessFaulted, h]

theorem State.check_of_holds {p : Bool} {code : ErrCode} {c : Result} (h : p = true) : s.check p code c = c := by
  simp [State.check, h]

theorem State.check_of_fails {p : Bool} {code : ErrCode} {c : Result} (h : ¬ p = true) :
    s.check p code c = .next (s.raise code) := by
  simp [State.check, h]

theorem State.conclude_answered {run : PortRun α} {reqs : List CipherRequest} {v : α} {w : α → Block → Block}
    (h : s.Follows run reqs v) (ha : ∀ q ∈ reqs, s.answered q) :
    s.conclude run w = .next { s.complete (w v s.block) with requests := s.requests ++ reqs } := by
  obtain ⟨h1, h2⟩ := h.answered ha
  simp [State.conclude, h1, h2]

theorem State.conclude_fail {run : PortRun α} {reqs sent rest : List CipherRequest} {q : CipherRequest} {v : α}
    {w : α → Block → Block} (h : s.Follows run reqs v) (hr : reqs = sent ++ q :: rest) (ha : ∀ p ∈ sent, s.answered p)
    (hl : s.lapses.lookup q = some .fail) :
    s.conclude run w = .next { s.raise .eCipher with requests := s.requests ++ (sent ++ [q]) } := by
  obtain ⟨h1, h2⟩ := h.lapsed sent q rest .fail hr ha hl
  simp [State.conclude, h1, h2]

theorem State.conclude_silent {run : PortRun α} {reqs sent rest : List CipherRequest} {q : CipherRequest} {v : α}
    {w : α → Block → Block} (h : s.Follows run reqs v) (hr : reqs = sent ++ q :: rest) (ha : ∀ p ∈ sent, s.answered p)
    (hl : s.lapses.lookup q = some .silent) : s.conclude run w = .fault .cipherHang := by
  obtain ⟨-, h2⟩ := h.lapsed sent q rest .silent hr ha hl
  simp [State.conclude, h2]

/-! ## The results of each command -/

/-- The four streams of `DSUB`. -/
def subkeySet (k : Bytes16) (n : Nat) : SubkeyStreams :=
  ⟨streamBytes k Config.idxL1 (Config.l1Bytes n), streamBytes k Config.idxL2 (Config.l2Bytes n),
   streamBytes k Config.idxL3a (Config.l3aBytes n), streamBytes k Config.idxL3b (Config.l3bBytes n)⟩

/-- The block with the results of a command written (`DONE` apart), from its derived streams. -/
def results (i : Instr) (b : Block) : Block :=
  let n := iters b.taglen
  match i with
  | .mulmod => { b with r := mulmod b.a b.b }
  | .kdf => writeObuf (streamBytes b.key b.stream b.len.toNat) b
  | .dsub1 => writeL1 n (subkeySet b.key n).l1 b
  | .dsub2 => writeL2 n (subkeySet b.key n).l2 b
  | .dsub3a => writeL3a n (subkeySet b.key n).l3a b
  | .dsub3b => writeL3b n (subkeySet b.key n).l3b b
  | .dsub => writeSubkeys n (subkeySet b.key n) b
  | .dpad => writePad (padBytes b) b
  | .srst => Block.reset

/-- No result is an input register, and the results leave `FAULT` and `ERR` alone (R11, R33). -/
theorem results_frame (i : Instr) (b : Block) (hi : i ≠ .srst) :
    sameInputs b (results i b) ∧ (results i b).fault = b.fault ∧ (results i b).err = b.err := by
  cases i
  case srst => exact absurd rfl hi
  all_goals exact ⟨⟨rfl, rfl, rfl, rfl, rfl, rfl, rfl, rfl, rfl⟩, rfl, rfl⟩

theorem State.Follows.subkeys (k : Bytes16) (n : Nat) :
    s.Follows (subkeyStreams s.cipher k n)
      (derivationRequests k Config.idxL1 (Config.l1Bytes n) ++ (derivationRequests k Config.idxL2 (Config.l2Bytes n) ++
        (derivationRequests k Config.idxL3a (Config.l3aBytes n) ++ derivationRequests k Config.idxL3b (Config.l3bBytes n))))
      (subkeySet k n) :=
  .andThen (.kdf ..) (.andThen (.kdf ..) (.andThen (.kdf ..) (.map _ (.kdf ..))))

theorem dsub_requests (b : Block) : commandRequests .dsub b =
    derivationRequests b.key Config.idxL1 (Config.l1Bytes (iters b.taglen)) ++
      (derivationRequests b.key Config.idxL2 (Config.l2Bytes (iters b.taglen)) ++
        (derivationRequests b.key Config.idxL3a (Config.l3aBytes (iters b.taglen)) ++
          derivationRequests b.key Config.idxL3b (Config.l3bBytes (iters b.taglen)))) := by
  rw [← List.append_assoc, ← List.append_assoc]
  rfl

/-- A derivation command whose checks hold: it ends as its run at the port does, and the run follows the requests
of R53 and is worth the streams of R76. -/
theorem exec_eq_conclude (hf : s.block.fault = false) (hr : s.block.ready i) (hi : i ≠ .mulmod) (hs : i ≠ .srst) :
    ∃ (α : Type) (run : PortRun α) (v : α) (w : α → Block → Block),
      exec i s = s.conclude run w ∧ s.Follows run (commandRequests i s.block) v ∧ w v s.block = results i s.block := by
  cases i
  case mulmod => exact absurd rfl hi
  case srst => exact absurd rfl hs
  case kdf =>
    refine ⟨_, _, _, writeObuf, ?_, .kdf s.block.key s.block.stream s.block.len.toNat, rfl⟩
    rw [exec, execKdf, s.unlessFaulted_of_clear hf, kdfCommand, s.check_of_holds (lenLegal_iff.mpr hr.2),
      s.check_of_holds (keyLoaded_iff.mpr hr.1)]
  case dsub1 =>
    refine ⟨_, _, _, writeL1 (iters s.block.taglen), ?_, .kdf s.block.key Config.idxL1 (Config.l1Bytes (iters s.block.taglen)), rfl⟩
    rw [exec, execDsub1, s.unlessFaulted_of_clear hf, dsub1Command, State.variantChecked,
      s.check_of_holds (tagLegal_iff.mpr hr.2), s.check_of_holds (keyLoaded_iff.mpr hr.1)]
  case dsub2 =>
    refine ⟨_, _, _, writeL2 (iters s.block.taglen), ?_, .kdf s.block.key Config.idxL2 (Config.l2Bytes (iters s.block.taglen)), rfl⟩
    rw [exec, execDsub2, s.unlessFaulted_of_clear hf, dsub2Command, State.variantChecked,
      s.check_of_holds (tagLegal_iff.mpr hr.2), s.check_of_holds (keyLoaded_iff.mpr hr.1)]
  case dsub3a =>
    refine ⟨_, _, _, writeL3a (iters s.block.taglen), ?_, .kdf s.block.key Config.idxL3a (Config.l3aBytes (iters s.block.taglen)), rfl⟩
    rw [exec, execDsub3a, s.unlessFaulted_of_clear hf, dsub3aCommand, State.variantChecked,
      s.check_of_holds (tagLegal_iff.mpr hr.2), s.check_of_holds (keyLoaded_iff.mpr hr.1)]
  case dsub3b =>
    refine ⟨_, _, _, writeL3b (iters s.block.taglen), ?_, .kdf s.block.key Config.idxL3b (Config.l3bBytes (iters s.block.taglen)), rfl⟩
    rw [exec, execDsub3b, s.unlessFaulted_of_clear hf, dsub3bCommand, State.variantChecked,
      s.check_of_holds (tagLegal_iff.mpr hr.2), s.check_of_holds (keyLoaded_iff.mpr hr.1)]
  case dsub =>
    have hfollows := State.Follows.subkeys (s := s) s.block.key (iters s.block.taglen)
    rw [← dsub_requests] at hfollows
    refine ⟨_, _, _, writeSubkeys (iters s.block.taglen), ?_, hfollows, rfl⟩
    rw [exec, execDsub, s.unlessFaulted_of_clear hf, dsubCommand, State.variantChecked,
      s.check_of_holds (tagLegal_iff.mpr hr.2), s.check_of_holds (keyLoaded_iff.mpr hr.1)]
  case dpad =>
    refine ⟨_, _, _, writePad, ?_, .padFn hr.2.1 hr.2.2, rfl⟩
    rw [exec, execDpad, s.unlessFaulted_of_clear hf, dpadCommand, s.check_of_holds (tagLegal_iff.mpr hr.2.1),
      s.check_of_holds ((nonceLegal_iff hr.2.1).mpr hr.2.2), s.check_of_holds (keyLoaded_iff.mpr hr.1)]

/-! ## The four ways a command ends -/

/-- While a fault is recorded every command but `SRST` is ignored (R107). -/
theorem exec_of_fault (hi : i ≠ .srst) (hf : s.block.fault = true) : exec i s = .next s := by
  cases i
  case srst => exact absurd rfl hi
  all_goals exact State.unlessFaulted_of_fault hf

/-- The first register check that fails decides the fault (R118). -/
theorem exec_of_firstFault {code : ErrCode} (hf : s.block.fault = false) (h : s.block.firstFault i code) :
    exec i s = .next (s.raise code) := by
  have hvar (rest : Nat → Result)
      (h : ¬ tagIsLegal s.block.taglen ∧ code = .eTaglen ∨ tagIsLegal s.block.taglen ∧ ¬ keyIsLoaded s.block ∧ code = .eKey) :
      s.variantChecked rest = .next (s.raise code) := by
    rcases h with ⟨ht, rfl⟩ | ⟨ht, hk, rfl⟩
    · rw [State.variantChecked, s.check_of_fails (mt tagLegal_iff.mp ht)]
    · rw [State.variantChecked, s.check_of_holds (tagLegal_iff.mpr ht), s.check_of_fails (mt keyLoaded_iff.mp hk)]
  cases i
  case mulmod => exact absurd h id
  case srst => exact absurd h id
  case kdf =>
    rw [exec, execKdf, s.unlessFaulted_of_clear hf, kdfCommand]
    rcases h with ⟨hl, rfl⟩ | ⟨hl, hk, rfl⟩
    · rw [s.check_of_fails (mt lenLegal_iff.mp hl)]
    · rw [s.check_of_holds (lenLegal_iff.mpr hl), s.check_of_fails (mt keyLoaded_iff.mp hk)]
  case dsub1 => rw [exec, execDsub1, s.unlessFaulted_of_clear hf]; exact hvar _ h
  case dsub2 => rw [exec, execDsub2, s.unlessFaulted_of_clear hf]; exact hvar _ h
  case dsub3a => rw [exec, execDsub3a, s.unlessFaulted_of_clear hf]; exact hvar _ h
  case dsub3b => rw [exec, execDsub3b, s.unlessFaulted_of_clear hf]; exact hvar _ h
  case dsub => rw [exec, execDsub, s.unlessFaulted_of_clear hf]; exact hvar _ h
  case dpad =>
    rw [exec, execDpad, s.unlessFaulted_of_clear hf, dpadCommand]
    rcases h with ⟨ht, rfl⟩ | ⟨ht, hn, rfl⟩ | ⟨ht, hn, hk, rfl⟩
    · rw [s.check_of_fails (mt tagLegal_iff.mp ht)]
    · rw [s.check_of_holds (tagLegal_iff.mpr ht), s.check_of_fails (mt (nonceLegal_iff ht).mp hn)]
    · rw [s.check_of_holds (tagLegal_iff.mpr ht), s.check_of_holds ((nonceLegal_iff ht).mpr hn),
        s.check_of_fails (mt keyLoaded_iff.mp hk)]

theorem exec_mulmod (hf : s.block.fault = false) : exec .mulmod s = .next (s.complete (results .mulmod s.block)) :=
  State.unlessFaulted_of_clear hf

theorem exec_srst : exec .srst s = .next (s.complete (results .srst s.block)) := rfl

/-- A command whose checks hold and whose requests are all answered succeeds with its results (R33, R132). -/
theorem exec_of_answered (hf : s.block.fault = false) (hr : s.block.ready i) (ha : s.portAnswers i) :
    exec i s = .next { s.complete (results i s.block) with requests := s.requests ++ commandRequests i s.block } := by
  by_cases hm : i = .mulmod
  · subst hm
    rw [exec_mulmod hf]
    simp [commandRequests, State.complete]
  by_cases hs : i = .srst
  · subst hs
    rw [exec_srst]
    simp [commandRequests, State.complete]
  obtain ⟨α, run, v, w, h1, h2, h3⟩ := exec_eq_conclude hf hr hm hs
  rw [h1, State.conclude_answered h2 ha, h3]

/-- The first request that answers `CipherFail` makes the command fault `E_CIPHER` (R117). -/
theorem exec_of_fail {sent : List CipherRequest} {q : CipherRequest} (hf : s.block.fault = false) (hr : s.block.ready i)
    (hp : s.portLapses i sent q .fail) :
    exec i s = .next { s.raise .eCipher with requests := s.requests ++ (sent ++ [q]) } := by
  obtain ⟨⟨rest, hq⟩, ha, hl⟩ := hp
  have hm : i ≠ .mulmod := by rintro rfl; simp [commandRequests] at hq
  have hs : i ≠ .srst := by rintro rfl; simp [commandRequests] at hq
  obtain ⟨α, run, v, w, h1, h2, -⟩ := exec_eq_conclude hf hr hm hs
  rw [h1, State.conclude_fail h2 hq ha hl]

/-- A request that is never answered hangs the command (R136). -/
theorem exec_of_silent {sent : List CipherRequest} {q : CipherRequest} (hf : s.block.fault = false) (hr : s.block.ready i)
    (hp : s.portLapses i sent q .silent) : exec i s = .fault .cipherHang := by
  obtain ⟨⟨rest, hq⟩, ha, hl⟩ := hp
  have hm : i ≠ .mulmod := by rintro rfl; simp [commandRequests] at hq
  have hs : i ≠ .srst := by rintro rfl; simp [commandRequests] at hq
  obtain ⟨α, run, v, w, h1, h2, -⟩ := exec_eq_conclude hf hr hm hs
  rw [h1, State.conclude_silent h2 hq ha hl]

/-! ## There is no fifth way -/

/-- The register checks of a command hold, or one of them is the first to fail. -/
theorem ready_or_firstFault (i : Instr) (b : Block) : b.ready i ∨ ∃ code, b.firstFault i code := by
  by_cases ht : tagIsLegal b.taglen <;> by_cases hk : keyIsLoaded b <;> by_cases hl : lenIsLegal b.len <;>
    by_cases hn : nonceIsLegal b.taglen b.nonceLen <;> cases i <;> simp [Block.ready, Block.firstFault, ht, hk, hl, hn]

theorem portAnswers_or_portLapses (s : State) (i : Instr) :
    s.portAnswers i ∨ ∃ sent q l, s.portLapses i sent q l := by
  have key : ∀ (reqs : List CipherRequest), (∀ q ∈ reqs, s.answered q) ∨
      ∃ sent q l, (∃ rest, reqs = sent ++ q :: rest) ∧ (∀ p ∈ sent, s.answered p) ∧ s.lapses.lookup q = some l := by
    intro reqs
    induction reqs with
    | nil => exact .inl (by simp)
    | cons q reqs ih =>
      cases hq : s.lapses.lookup q with
      | some l => exact .inr ⟨[], q, l, ⟨reqs, rfl⟩, by simp, hq⟩
      | none =>
        rcases ih with ih | ⟨sent, q', l, ⟨rest, hr⟩, ha, hl⟩
        · exact .inl (List.forall_mem_cons.mpr ⟨hq, ih⟩)
        · exact .inr ⟨q :: sent, q', l, ⟨rest, by simp [hr]⟩, List.forall_mem_cons.mpr ⟨hq, ha⟩, hl⟩
  exact key _

/-- What a next state of a command is. -/
inductive ExecEnds (i : Instr) (s t : State) : Prop where
  | ignored (hi : i ≠ .srst) (hf : s.block.fault = true) (ht : t = s)
  | checked (code : ErrCode) (hi : i ≠ .srst) (hf : s.block.fault = false) (hc : s.block.firstFault i code) (ht : t = s.raise code)
  | failed (sent : List CipherRequest) (q : CipherRequest) (hi : i ≠ .srst) (hf : s.block.fault = false)
      (hr : s.block.ready i) (hp : s.portLapses i sent q .fail)
      (ht : t = { s.raise .eCipher with requests := s.requests ++ (sent ++ [q]) })
  | succeeded (hf : i = .srst ∨ s.block.fault = false) (hr : s.block.ready i) (ha : s.portAnswers i)
      (ht : t = { s.complete (results i s.block) with requests := s.requests ++ commandRequests i s.block })

theorem exec_ends (h : exec i s = .next t) : ExecEnds i s t := by
  by_cases hi : i = .srst
  · subst hi
    rw [exec_srst] at h
    cases h
    exact .succeeded (.inl rfl) trivial (by simp [State.portAnswers, commandRequests])
      (by simp [commandRequests, State.complete])
  cases hf : s.block.fault
  case true =>
    rw [exec_of_fault hi hf] at h
    cases h
    exact .ignored hi hf rfl
  case false =>
    rcases ready_or_firstFault i s.block with hr | ⟨code, hc⟩
    · rcases portAnswers_or_portLapses s i with ha | ⟨sent, q, l, hp⟩
      · rw [exec_of_answered hf hr ha] at h
        cases h
        exact .succeeded (.inr hf) hr ha rfl
      · cases l
        case fail =>
          rw [exec_of_fail hf hr hp] at h
          cases h
          exact .failed sent q hi hf hr hp rfl
        case silent =>
          rw [exec_of_silent hf hr hp] at h
          cases h
    · rw [exec_of_firstFault hf hc] at h
      cases h
      exact .checked code hi hf hc rfl

end Sys2Proof.Machine
end

