-- ==== Sys2Proof/Laws/Banks.lean ====
section
/-! SUPPORT. The entries that the derivations leave in `OBUF` and the banks, read one at a time. -/

namespace Sys2Proof.Machine

theorem bufRead_bank {w n valid : Nat} (entry : Nat → BitVec w) {j : Nat} (h : j < n) :
    bufRead (bank n valid entry) j = if j < valid then entry j else 0#w := bufRead_bufOf _ h

/-- A 32-bit entry of a stream (R84, R87). -/
theorem be32At_streamBytes (k : Bytes16) (idx : DWord) {n off : Nat} (h : off + 4 ≤ n) :
    be32At (streamBytes k idx n) off = streamWord k idx off := by
  rw [be32At_eq _ _ (by simpa using h), byteAt_streamBytes k idx (by omega), byteAt_streamBytes k idx (by omega),
    byteAt_streamBytes k idx (by omega), byteAt_streamBytes k idx (by omega)]
  rfl

/-- A 64-bit entry of a stream (R85, R86). -/
theorem be64At_streamBytes (k : Bytes16) (idx : DWord) {n off : Nat} (h : off + 8 ≤ n) :
    be64At (streamBytes k idx n) off = streamDWord k idx off := by
  rw [be64At_eq _ _ (by simpa using h), be32At_streamBytes k idx (by omega), be32At_streamBytes k idx (by omega)]
  rfl

theorem ofNat_iters {n : Nat} (h : n ≤ 4) : (BitVec.ofNat 3 n).toNat = n := by
  rw [BitVec.toNat_ofNat]
  omega

variable {k : Bytes16} {n : Nat} {b : Block}

/-- What `DSUB1` writes (R20, R84). -/
theorem layer1Derived_writeL1 (h1 : 1 ≤ n) (h4 : n ≤ 4) : layer1Derived k n (writeL1 n (subkeySet k n).l1 b) := by
  refine ⟨fun j hj => ?_, fun j hj hj' => ?_, ofNat_iters h4⟩ <;>
    rw [writeL1_l1k, bufRead_bank _ (by omega), l1Valid, Config.l1Words]
  · rw [if_pos hj]
    exact be32At_streamBytes k Config.idxL1 (by simp only [Config.l1Bytes, Config.l1Words]; omega)
  · rw [if_neg (by omega)]

/-- What `DSUB2` writes (R21, R85). -/
theorem layer2Derived_writeL2 (h4 : n ≤ 4) : layer2Derived k n (writeL2 n (subkeySet k n).l2 b) := by
  refine ⟨fun j hj => ?_, fun j hj hj' => ?_, ofNat_iters h4⟩ <;> rw [writeL2_l2k, bufRead_bank _ (by omega), l2Valid]
  · rw [if_pos hj]
    exact congrArg (· &&& Config.l2Mask)
      (be64At_streamBytes k Config.idxL2 (by simp only [Config.l2Bytes]; omega))
  · rw [if_neg (by omega)]

theorem l3aEntry_toNat (st : List Byte) (j : Nat) :
    (l3aEntry st j).toNat = (be64At st (8 * j)).toNat % (2 ^ 36 - 5) := by
  simp only [l3aEntry, Config.P36, BitVec.toNat_ofNat]
  omega

/-- What `DSUB3A` writes (R22, R86). -/
theorem layer3aDerived_writeL3a (h4 : n ≤ 4) : layer3aDerived k n (writeL3a n (subkeySet k n).l3a b) := by
  refine ⟨fun j hj => ?_, fun j hj hj' => ?_, ofNat_iters h4⟩ <;> rw [writeL3a_l3ak, bufRead_bank _ (by omega), l3aValid]
  · rw [if_pos hj, l3aEntry_toNat]
    exact congrArg (·.toNat % (2 ^ 36 - 5))
      (be64At_streamBytes k Config.idxL3a (n := Config.l3aBytes n) (off := 8 * j) (by simp only [Config.l3aBytes]; omega))
  · rw [if_neg (by omega)]

/-- What `DSUB3B` writes (R23, R87). -/
theorem layer3bDerived_writeL3b (h4 : n ≤ 4) : layer3bDerived k n (writeL3b n (subkeySet k n).l3b b) := by
  refine ⟨fun j hj => ?_, fun j hj hj' => ?_, ofNat_iters h4⟩ <;> rw [writeL3b_l3bk, bufRead_bank _ (by omega), l3bValid]
  · rw [if_pos hj]
    exact be32At_streamBytes k Config.idxL3b (by simp only [Config.l3bBytes]; omega)
  · rw [if_neg (by omega)]

end Sys2Proof.Machine
end

