-- ==== Sys2Proof/Laws/PerInstr.lean ====
section
/-! SUPPORT. Statements made once for each command. -/

namespace Sys2Proof.Laws.RoundTrip

/-- A well-formed command is what its own word decodes to, and its word has a zero `ZERO` field (R60, R61). -/
def Statement (i : Instr) : Prop :=
  i.wellFormed = true → decode (encode i) = .instr i ∧ zeroField (encode i) = 0#24 ∧ opField (encode i) = opcode i

theorem mulmod : Statement .mulmod := by unfold Statement; decide
theorem kdf : Statement .kdf := by unfold Statement; decide
theorem dsub1 : Statement .dsub1 := by unfold Statement; decide
theorem dsub2 : Statement .dsub2 := by unfold Statement; decide
theorem dsub3a : Statement .dsub3a := by unfold Statement; decide
theorem dsub3b : Statement .dsub3b := by unfold Statement; decide
theorem dsub : Statement .dsub := by unfold Statement; decide
theorem dpad : Statement .dpad := by unfold Statement; decide
theorem srst : Statement .srst := by unfold Statement; decide

end Sys2Proof.Laws.RoundTrip
end

