-- ==== Sys2Proof/Laws/Prime.lean ====
section
/-! SUPPORT. The modulus of the multiplier is prime (R70), by a certificate of Lucas: the prime factors of one less
than the number, and a generator. The powers are evaluated by repeated squaring. -/

namespace Sys2Proof.Laws

/-- `a ^ e mod n`, the bits of `e` taken one at a time; `fuel` bounds their number. -/
def powMod (n : Nat) : (fuel a e : Nat) → Nat
  | 0, _, _ => 1 % n
  | fuel + 1, a, e => if e % 2 = 1 then a * powMod n fuel (a ^ 2 % n) (e / 2) % n else powMod n fuel (a ^ 2 % n) (e / 2)

theorem powMod_eq (n fuel a e : Nat) (h : e < 2 ^ fuel) : powMod n fuel a e % n = a ^ e % n := by
  induction fuel generalizing a e with
  | zero =>
    have : e = 0 := by simpa using h
    subst this
    simp [powMod]
  | succ fuel ih =>
    have hhalf := ih (a ^ 2 % n) (e / 2) (by rw [pow_succ] at h; omega)
    rw [← Nat.pow_mod, ← pow_mul] at hhalf
    rw [powMod]
    split
    · rename_i hodd
      rw [Nat.mod_mod, Nat.mul_mod, hhalf, ← Nat.mul_mod, ← pow_succ', show 2 * (e / 2) + 1 = e by omega]
    · rw [hhalf, show 2 * (e / 2) = e by omega]

/-- A Lucas certificate: `a` has order `n - 1`, whose prime factors are among `factors`. -/
theorem prime_of_certificate (n a : Nat) (factors : List Nat) (hn : 1 < n) (hlt : n < 2 ^ 128)
    (hone : powMod n 128 a (n - 1) % n = 1)
    (hfactors : ∀ q ∈ factors, powMod n 128 a ((n - 1) / q) % n ≠ 1)
    (hall : ∀ q, q.Prime → q ∣ n - 1 → q ∈ factors) : n.Prime := by
  have hpow (e : Nat) (he : e < 2 ^ 128) : (a : ZMod n) ^ e = 1 ↔ powMod n 128 a e % n = 1 := by
    rw [powMod_eq n 128 a e he, ← Nat.cast_pow, ← Nat.cast_one, ZMod.natCast_eq_natCast_iff', Nat.mod_eq_of_lt hn]
  refine lucas_primality n (a : ZMod n) ((hpow _ (by omega)).mpr hone) fun q hq hd => ?_
  rw [Ne, hpow _ (lt_of_le_of_lt (Nat.div_le_self _ _) (by omega))]
  exact hfactors q (hall q hq hd)

/-- A prime factor of a product is a factor of one of the two. -/
theorem dvd_cases {q m k : Nat} (hq : q.Prime) (h : q ∣ m * k) : q ∣ m ∨ q ∣ k := (Nat.Prime.dvd_mul hq).mp h

/-- A prime factor of a power of a prime is that prime. -/
theorem eq_of_dvd_pow {q r k : Nat} (hq : q.Prime) (hr : r.Prime) (h : q ∣ r ^ k) : q = r :=
  (Nat.prime_dvd_prime_iff_eq hq hr).mp (hq.dvd_of_dvd_pow h)

theorem prime_62826870453001 : Nat.Prime 62826870453001 := by
  refine prime_of_certificate _ 11 [2, 3, 5, 73, 13147, 21821] (by norm_num) (by norm_num) (by decide +kernel)
    (by decide +kernel) fun q hq hd => ?_
  rw [show 62826870453001 - 1 = 2 ^ 3 * 3 ^ 1 * 5 ^ 3 * 73 ^ 1 * 13147 ^ 1 * 21821 ^ 1 by norm_num] at hd
  have hp (r k : Nat) (hr : r.Prime) (h : q ∣ r ^ k) : q = r := eq_of_dvd_pow hq hr h
  rcases dvd_cases hq hd with hd | hd
  · rcases dvd_cases hq hd with hd | hd
    · rcases dvd_cases hq hd with hd | hd
      · rcases dvd_cases hq hd with hd | hd
        · rcases dvd_cases hq hd with hd | hd
          · simp [hp 2 3 (by norm_num) hd]
          · simp [hp 3 1 (by norm_num) hd]
        · simp [hp 5 3 (by norm_num) hd]
      · simp [hp 73 1 (by norm_num) hd]
    · simp [hp 13147 1 (by norm_num) hd]
  · simp [hp 21821 1 (by norm_num) hd]

/-- `P = 2^128 - 159` is prime (R70). -/
theorem prime_P : Nat.Prime Config.P := by
  refine prime_of_certificate _ 5 [2, 3, 10253, 29333, 4454477, 42113237, 62826870453001] (by decide) (by decide)
    (by decide +kernel) (by decide +kernel) fun q hq hd => ?_
  rw [show Config.P - 1 = 2 ^ 5 * 3 ^ 1 * 10253 ^ 1 * 29333 ^ 1 * 4454477 ^ 1 * 42113237 ^ 1 * 62826870453001 ^ 1 by
    norm_num [Config.P]] at hd
  have hp (r k : Nat) (hr : r.Prime) (h : q ∣ r ^ k) : q = r := eq_of_dvd_pow hq hr h
  rcases dvd_cases hq hd with hd | hd
  · rcases dvd_cases hq hd with hd | hd
    · rcases dvd_cases hq hd with hd | hd
      · rcases dvd_cases hq hd with hd | hd
        · rcases dvd_cases hq hd with hd | hd
          · rcases dvd_cases hq hd with hd | hd
            · simp [hp 2 5 (by norm_num) hd]
            · simp [hp 3 1 (by norm_num) hd]
          · simp [hp 10253 1 (by norm_num) hd]
        · simp [hp 29333 1 (by norm_num) hd]
      · simp [hp 4454477 1 (by norm_num) hd]
    · simp [hp 42113237 1 (by norm_num) hd]
  · simp [hp 62826870453001 1 prime_62826870453001 hd]

end Sys2Proof.Laws
end

