-- ==== Sys2Proof/Laws/Step.lean ====
section
/-! SUPPORT. What a step can do, said once: idle, a read, a register write, a command, an illegal word, or the reset
input. -/

namespace Sys2Proof.Machine

variable {s t : State}

/-! ## The host port -/

theorem atReg_offset (reg : Reg) (k : Reg → Result) : State.atReg (offset reg) 4 k = k reg := by
  have h1 := offset_mod_four reg
  have h2 := offset_le reg
  rw [State.atReg, if_neg (by simp [h1]), if_neg (by unfold Config.window; omega), regAt_offset]

theorem atReg_next {off width : Nat} {k : Reg → Result} (h : State.atReg off width k = .next t) :
    ∃ reg, off = offset reg ∧ width = 4 ∧ k reg = .next t := by
  unfold State.atReg at h
  split at h
  · cases h
  · split at h
    · cases h
    · split at h
      · cases h
      · rename_i hw _ reg hreg
        exact ⟨reg, (offset_of_regAt hreg).symm, by omega, h⟩

/-- An ill-formed access is refused (R40, R42). -/
theorem atReg_of_not_wellFormed {off width : Nat} (k : Reg → Result) (h : accessWellFormed off width = false) :
    ∃ why, State.atReg off width k = .refused why := by
  unfold State.atReg
  split
  · exact ⟨_, rfl⟩
  · split
    · exact ⟨_, rfl⟩
    · rename_i h1 h2
      simp [accessWellFormed] at h
      omega

theorem hostRead_offset (reg : Reg) (s : State) :
    hostRead (offset reg) 4 s = .next { s with replies := s.replies ++ [s.block.readReg reg] } :=
  atReg_offset reg _

theorem hostWrite_offset {reg : Reg} (h : reg ≠ .cmd) (v : Word) (s : State) :
    hostWrite (offset reg) 4 v s = .next { s with block := s.block.writeReg reg v } := by
  rw [hostWrite, atReg_offset, if_neg h]

theorem hostWrite_cmd (v : Word) (s : State) : hostWrite 0x0004 4 v s = runCommand v s := by
  have := atReg_offset .cmd fun reg =>
    if reg = .cmd then runCommand v s else .next { s with block := s.block.writeReg reg v }
  simpa [hostWrite, offset] using this

theorem runCommand_instr {v : Word} {i : Instr} (h : decode v = .instr i) : runCommand v s = exec i s := by
  simp [runCommand, h]

theorem runCommand_illegal {v : Word} {why : IllegalWord} (h : decode v = .illegal why) : runCommand v s = illegalWord s := by
  simp [runCommand, h]

/-! ## One step -/

theorem step_idle (h : s.accesses = []) : step s = .next s := by simp [step, nextInput, h]

theorem step_input {input : HostInput} {rest : List HostInput} (h : s.accesses = input :: rest) :
    step s = perform input { s with accesses := rest } := by simp [step, nextInput, h]

/-! ## A run, one step at a time -/

theorem run_of_step (n : Nat) (h : step s = .next t) : core.run (n + 1) s = core.run n t := by
  have h' : core.step s = .next t := h
  refine (Host.Core.run.eq_2 core s n).trans ?_
  rw [h']

theorem run_write {reg : Reg} {v : Word} {rest : List HostInput} (n : Nat) (hreg : reg ≠ .cmd)
    (h : s.accesses = writeOf reg v :: rest) : core.run (n + 1) s =
      core.run n ({ s with accesses := rest, block := s.block.writeReg reg v } : State) :=
  run_of_step n ((step_input h).trans (hostWrite_offset hreg v _))

theorem run_read {reg : Reg} {rest : List HostInput} (n : Nat) (h : s.accesses = readOf reg :: rest) :
    core.run (n + 1) s =
      core.run n ({ s with accesses := rest, replies := s.replies ++ [s.block.readReg reg] } : State) :=
  run_of_step n ((step_input h).trans (hostRead_offset reg _))

/-! ## The ends of a step -/

/-- What a next state of the machine is. -/
inductive StepEnds (s t : State) : Prop where
  | idle (h : s.accesses = []) (ht : t = s)
  | read (reg : Reg) (rest : List HostInput) (h : s.accesses = .read (offset reg) 4 :: rest)
      (ht : t = { s with accesses := rest, replies := s.replies ++ [s.block.readReg reg] })
  | wrote (reg : Reg) (v : Word) (rest : List HostInput) (hreg : reg ≠ .cmd)
      (h : s.accesses = .write (offset reg) 4 v :: rest)
      (ht : t = { s with accesses := rest, block := s.block.writeReg reg v })
  | command (v : Word) (i : Instr) (rest : List HostInput) (h : s.accesses = .write 0x0004 4 v :: rest)
      (hd : decode v = .instr i) (he : exec i { s with accesses := rest } = .next t)
  | illegalIgnored (v : Word) (why : IllegalWord) (rest : List HostInput) (h : s.accesses = .write 0x0004 4 v :: rest)
      (hd : decode v = .illegal why) (hf : s.block.fault = true) (ht : t = { s with accesses := rest })
  | illegalRaised (v : Word) (why : IllegalWord) (rest : List HostInput) (h : s.accesses = .write 0x0004 4 v :: rest)
      (hd : decode v = .illegal why) (hf : s.block.fault = false)
      (ht : t = { s with accesses := rest, block := s.block.raise .eOp })
  | reset (rest : List HostInput) (h : s.accesses = .rst :: rest)
      (ht : t = { s with accesses := rest, block := Block.reset })

theorem step_ends (h : step s = .next t) : StepEnds s t := by
  cases hs : s.accesses with
  | nil =>
    rw [step_idle hs] at h
    cases h
    exact .idle hs rfl
  | cons input rest =>
    rw [step_input hs] at h
    cases input with
    | read off width =>
      obtain ⟨reg, rfl, rfl, hk⟩ := atReg_next h
      cases hk
      exact .read reg rest hs rfl
    | write off width v =>
      obtain ⟨reg, rfl, rfl, hk⟩ := atReg_next h
      by_cases hc : reg = .cmd
      · subst hc
        rw [if_pos rfl] at hk
        cases hd : decode v with
        | instr i => exact .command v i rest hs hd (by rwa [runCommand_instr hd] at hk)
        | illegal why =>
          rw [runCommand_illegal hd] at hk
          cases hf : s.block.fault
          case true =>
            rw [illegalWord, State.unlessFaulted_of_fault (s := { s with accesses := rest }) hf] at hk
            cases hk
            exact .illegalIgnored v why rest hs hd hf rfl
          case false =>
            rw [illegalWord, State.unlessFaulted_of_clear (s := { s with accesses := rest }) hf] at hk
            cases hk
            exact .illegalRaised v why rest hs hd hf rfl
      · rw [if_neg hc] at hk
        cases hk
        exact .wrote reg v rest hc hs rfl
    | rst =>
      cases h
      exact .reset rest hs rfl

end Sys2Proof.Machine
end

