-- ==== Sys2Proof/Tests/Slice0.lean ====
section
/-! SUPPORT. Tests. Expected values are the vectors of spec/95_test_vectors.md (named in each comment); `TOYXOR` is its
toy cipher. Then one witness for each statement that has hypotheses: a state that meets them all. -/

namespace Sys2Proof.Tests

open Sys2Proof.Machine

/-! ## Helpers -/

def bytes16 (s : List Byte) : Bytes16 := bufOf 16 (byteAt s)

/-- `TOYXOR` (95_test_vectors, section 2). -/
def toyXor : Cipher := fun k x => .ok (bufOf 16 fun i => bufRead k i ^^^ bufRead x i)

/-- `FAILAT(m)` for the request whose block is `bad` (95_test_vectors, section 2). -/
def failAt (bad : Bytes16) : Cipher := fun k x => if x = bad then .error .fail else toyXor k x

/-- "abcdefghijklmnop". -/
def fixtureKey : Bytes16 := bytes16 [0x61, 0x62, 0x63, 0x64, 0x65, 0x66, 0x67, 0x68, 0x69, 0x6a, 0x6b, 0x6c, 0x6d, 0x6e, 0x6f, 0x70]

/-- "bcdefghi". -/
def fixtureNonce : Bytes16 := bytes16 [0x62, 0x63, 0x64, 0x65, 0x66, 0x67, 0x68, 0x69]

/-- Key loaded, the fixture nonce, `STREAM = 1`. -/
def loaded (taglen nonceLen len : Word) : State :=
  { State.reset with block := { Block.reset with key := fixtureKey, keyw := 0b1111#4, taglen := taglen,
                                                 nonce := fixtureNonce, nonceLen := nonceLen, stream := 1#64, len := len } }

def withOperands (a b : QWord) : State := { State.reset with block := { Block.reset with a := a, b := b } }

/-- A recorded fault `E_OP`. -/
def faulted : State := { State.reset with block := { Block.reset with fault := true, err := .eOp } }

def pending (s : State) (inputs : List HostInput) : State := { s with accesses := inputs }

/-- The responder answers the request in the way given. -/
def lapsing (s : State) (q : CipherRequest) (lapse : CipherLapse) : State := { s with lapses := [(q, lapse)] }

/-- A value read from the next state. -/
def shows {α : Type} (r : Result) (f : State → α) : Option α :=
  match r with
  | .next t => some (f t)
  | .fault _ => none
  | .refused _ => none

def statusAndErr (t : State) : Word × Word := (t.block.readReg .status, t.block.readReg .err)

/-! ## Well-formedness: each check refuses an ill-formed term -/

theorem test_wellFormed_width : HostInput.wellFormed (.read 0x0004 2) = false := by decide
theorem test_wellFormed_alignment : HostInput.wellFormed (.write 0x0002 4 0#32) = false := by decide
theorem test_wellFormed_window : HostInput.wellFormed (.read 0x2000 4) = false := by decide
theorem test_wellFormed_access : HostInput.wellFormed (.read 0x1FFC 4) = true := by decide
theorem test_wellFormed_rst : HostInput.wellFormed .rst = true := by decide
theorem test_wellFormed_nonce_empty : ScriptLine.wellFormed (.ldnonce []) = false := by decide
theorem test_wellFormed_nonce_long : ScriptLine.wellFormed (.ldnonce (List.replicate 17 0#8)) = false := by decide
theorem test_wellFormed_instr : Instr.wellFormed .dpad = true := by decide

/-! ## Decoding: each word from the format and the opcode map (30_encoding) -/

theorem test_decode_mulmod : decode 0b000000000000000000000000_00000001#32 = .instr .mulmod := by decide
theorem test_decode_kdf : decode 0b000000000000000000000000_00000010#32 = .instr .kdf := by decide
theorem test_decode_dsub1 : decode 0b000000000000000000000000_00000011#32 = .instr .dsub1 := by decide
theorem test_decode_dsub2 : decode 0b000000000000000000000000_00000100#32 = .instr .dsub2 := by decide
theorem test_decode_dsub3a : decode 0b000000000000000000000000_00000101#32 = .instr .dsub3a := by decide
theorem test_decode_dsub3b : decode 0b000000000000000000000000_00000110#32 = .instr .dsub3b := by decide
theorem test_decode_dsub : decode 0b000000000000000000000000_00000111#32 = .instr .dsub := by decide
theorem test_decode_dpad : decode 0b000000000000000000000000_00001000#32 = .instr .dpad := by decide
theorem test_decode_srst : decode 0b000000000000000000000000_00001111#32 = .instr .srst := by decide

/-- F5, F6: a set bit above `OP`. F3, F4: no such `OP`. -/
theorem test_decode_illegal :
    decode 0x00000101#32 = .illegal .zeroFieldSet ∧ decode 0x80000001#32 = .illegal .zeroFieldSet ∧
    decode 0x00000000#32 = .illegal .noSuchOpcode ∧ decode 0x00000009#32 = .illegal .noSuchOpcode := by decide

/-- The little-endian spelling of `MULMOD`'s word is no command (30_encoding R60). -/
theorem test_decodeTableWord : decodeTableWord 32 0x0F = some .srst ∧ decodeTableWord 8 0x07 = some .dsub ∧
    decodeTableWord 32 0x01000000 = none ∧ decodeTableWord 40 0x100000001 = none := by decide

/-- The word that `withFetchWord` places is the one that the next step runs: F2. -/
theorem test_withFetchWord : shows (step (State.reset.withFetchWord 32 0x01)) statusAndErr = some (0x1#32, 0#32) := by
  decide +kernel

/-! ## MULMOD -/

/-- S3 and S5. -/
theorem test_mulmod_wide :
    shows (exec .mulmod (withOperands 0xFFFFFFFFFFFFFFFFFFFFFFFFFFFFFFFA#128 2#128)) (·.block.r) = some 0x132#128 ∧
    shows (exec .mulmod (withOperands (-1#128) (-1#128))) (·.block.r) = some 0x6184#128 := by decide +kernel

/-- M17. -/
theorem test_mulmod_general :
    shows (exec .mulmod (withOperands 0x0123456789abcdeffedcba9876543210#128 0x0fedcba987654321123456789abcdef0#128))
      (·.block.r) = some 0xb5ae2bc81cc3556d3dbbb924ee035357#128 := by decide +kernel

/-! ## KDF -/

/-- K5: the second block is begun, the rest of its word is zero. -/
theorem test_kdf_two_blocks :
    shows (kdfCommand toyXor (loaded 0#32 0#32 17#32)) (fun t => ([0, 1, 2, 3, 4, 5].map (bufWord t.block.obuf), t.block.olen,
      t.requests.length)) =
      some ([0x61626364#32, 0x65666769#32, 0x696A6B6C#32, 0x6D6E6F71#32, 0x61000000#32, 0#32], 17#32, 2) := by decide +kernel

/-- F7, F8, F10. -/
theorem test_kdf_faults :
    shows (exec .kdf State.reset) statusAndErr = some (0x2#32, 4#32) ∧
    shows (exec .kdf { State.reset with block := { Block.reset with len := 16#32 } }) statusAndErr = some (0x2#32, 2#32) ∧
    shows (exec .kdf (loaded 0#32 0#32 1073#32)) statusAndErr = some (0x6#32, 4#32) := by decide +kernel

/-! ## Subkeys (section 5.2) -/

theorem test_dsub1 :
    shows (dsub1Command toyXor (loaded 32#32 0#32 0#32)) (fun t => ([3, 252, 255, 256].map (bufRead t.block.l1k), t.block.readReg .skn)) =
      some ([0x6d6e6f71#32, 0x61626364#32, 0x6d6e6f30#32, 0#32], 0x1#32) := by decide +kernel

theorem test_dsub2 :
    shows (dsub2Command toyXor (loaded 64#32 0#32 0#32)) (fun t => ([0, 1, 5, 6].map (bufRead t.block.l2k), t.block.readReg .skn)) =
      some ([0x016263640166676a#64, 0x016a6b6c016e6f71#64, 0x016a6b6c016e6f73#64, 0#64], 0x20#32) := by decide +kernel

/-- F24: the third of four requests fails. -/
theorem test_dsub2_cipher_fail :
    shows (dsub2Command (failAt (kdfInput 2#64 3)) (loaded 64#32 0#32 0#32)) (fun t => (statusAndErr t, t.requests.length,
      t.block.l2i)) = some ((0x6#32, 6#32), 3, 0#3) := by decide +kernel

theorem test_dsub3a :
    shows (dsub3aCommand toyXor (loaded 128#32 0#32 0#32)) (fun t => ([0, 1, 29, 31].map (bufRead t.block.l3ak), t.block.readReg .skn)) =
      some ([0x483D52679#64, 0xc8e5fb0ff#64, 0xc8e5fb10d#64, 0xc8e5fb0ee#64], 0x400#32) := by decide +kernel

theorem test_dsub3b :
    shows (dsub3bCommand toyXor (loaded 96#32 0#32 0#32)) (fun t => ([0, 1, 2, 3].map (bufRead t.block.l3bk), t.block.readReg .skn)) =
      some ([0x61626364#32, 0x6566676c#32, 0x696a6b6c#32, 0#32], 0x3000#32) := by decide +kernel

theorem test_dsub :
    shows (dsubCommand toyXor (loaded 32#32 0#32 0#32)) (fun t => (t.block.readReg .skn, t.requests.length, bufRead t.block.l1k 255,
      bufRead t.block.l3ak 7, bufRead t.block.l3bk 0)) =
      some (0x1111#32, 73, 0x6d6e6f30#32, 0xc8e5fb102#64, 0x61626364#32) := by decide +kernel

/-- F14, F16. -/
theorem test_dsub_faults :
    shows (exec .dsub (loaded 0x120#32 0#32 0#32)) statusAndErr = some (0x6#32, 3#32) ∧
    shows (exec .dsub { State.reset with block := { Block.reset with taglen := 32#32 } }) statusAndErr = some (0x2#32, 2#32) := by
  decide +kernel

/-! ## DPAD (section 6.1) -/

theorem test_dpad :
    shows (dpadCommand toyXor (loaded 32#32 8#32 0#32)) (fun t => (bufWord t.block.pad 0, bufWord t.block.pad 1, t.block.padlen,
      t.requests.length)) = some (0x03010F00#32, 0#32, 4#32, 3) ∧
    shows (dpadCommand toyXor (loaded 64#32 8#32 0#32)) (fun t => (bufWord t.block.pad 1, t.block.padlen)) =
      some (0x6D6E6F71#32, 8#32) ∧
    shows (dpadCommand toyXor (loaded 96#32 8#32 0#32)) (fun t => (bufWord t.block.pad 1, bufWord t.block.pad 3, t.block.padlen)) =
      some (0x03010F01#32, 0#32, 12#32) := by decide +kernel

/-- F17, F18, F20, F22. -/
theorem test_dpad_faults :
    shows (exec .dpad { State.reset with block := { Block.reset with taglen := 40#32 } }) statusAndErr = some (0x2#32, 3#32) ∧
    shows (exec .dpad { State.reset with block := { Block.reset with taglen := 32#32, nonceLen := 7#32 } }) statusAndErr =
      some (0x2#32, 5#32) ∧
    shows (exec .dpad (loaded 64#32 16#32 0#32)) statusAndErr = some (0x6#32, 5#32) ∧
    shows (exec .dpad (loaded 96#32 17#32 0#32)) statusAndErr = some (0x6#32, 5#32) := by decide +kernel

/-! ## SRST, illegal words and the host port -/

/-- F31. -/
theorem test_srst : shows (exec .srst faulted) (fun t => (statusAndErr t, t.block.fault)) = some ((0x1#32, 0#32), false) := by
  decide +kernel

/-- F27, F28. -/
theorem test_ignored :
    shows (step (pending faulted [.write 0x0004 4 1#32])) statusAndErr = some (0x2#32, 1#32) ∧
    shows (step (pending faulted [.write 0x0004 4 0#32])) statusAndErr = some (0x2#32, 1#32) := by decide +kernel

/-- F38: no meaning. -/
theorem test_refused :
    step (pending State.reset [.read 0x0090 4]) = .refused (.unmappedOffset 0x0090) ∧
    step (pending State.reset [.write 0x1030 4 0#32]) = .refused (.unmappedOffset 0x1030) ∧
    step (pending State.reset [.read 0x0002 4]) = .refused (.undefinedAccess 0x0002 4) ∧
    step (pending State.reset [.read 0x0004 8]) = .refused (.undefinedAccess 0x0004 8) := ⟨rfl, rfl, rfl, rfl⟩

/-- F1, F33: `ID` and `KEY0`. -/
theorem test_reads :
    shows (step (pending State.reset [.read 0x0000 4])) (·.replies) = some [0x4C554301#32] ∧
    shows (step (pending (loaded 0#32 0#32 0#32) [.read 0x0030 4])) (·.replies) = some [0#32] := by decide +kernel

/-- P1: the first word of `LD128 A` is the most significant. -/
theorem test_write_wide :
    shows (step (pending State.reset [.write 0x0050 4 0x89ABCDEF#32])) (·.block.a) =
      some 0x89ABCDEF000000000000000000000000#128 := by decide +kernel

/-! ## Witnesses -/

theorem ready_loaded (i : Instr) {taglen nonceLen len : Word} (ht : tagIsLegal taglen) (hn : nonceIsLegal taglen nonceLen)
    (hl : lenIsLegal len) : (loaded taglen nonceLen len).block.fault = false ∧ (loaded taglen nonceLen len).block.ready i := by
  refine ⟨rfl, ?_⟩
  cases i
  case mulmod => trivial
  case srst => trivial
  case kdf => exact ⟨rfl, hl⟩
  case dpad => exact ⟨rfl, ht, hn⟩
  all_goals exact ⟨rfl, ht⟩

theorem answers_loaded (i : Instr) (taglen nonceLen len : Word) : (loaded taglen nonceLen len).portAnswers i := fun _ _ => rfl

theorem nonce_8 {t : Word} (ht : tagIsLegal t) : nonceIsLegal t 8#32 := by
  rcases ht with rfl | rfl | rfl | rfl <;> simp [nonceIsLegal]

/-- Every command but `SRST`, at every tag length and at the ends of the length range, can be ready and answered:
`KdfLeavesTheDerivedStream`, `Dsub1LeavesTheLayer1Key`, `Dsub2LeavesTheMaskedLayer2Key`,
`Dsub3aLeavesTheReducedLayer3aKey`, `Dsub3bLeavesTheLayer3bKey`, `DsubEqualsTheFourInSequence`,
`DpadLeavesTheSliceOfTheBlock`, `MetRequirementsMeanSuccess`, `CommandsIssueTheirRequestSequence`. -/
theorem witness_ready (i : Instr) : ∀ t ∈ [32#32, 64#32, 96#32, 128#32], ∀ n ∈ [1#32, 1072#32],
    tagIsLegal (loaded t 8#32 n).block.taglen ∧ nonceIsLegal (loaded t 8#32 n).block.taglen (loaded t 8#32 n).block.nonceLen ∧
    (loaded t 8#32 n).block.fault = false ∧ (loaded t 8#32 n).block.ready i ∧ (loaded t 8#32 n).portAnswers i := by
  intro t ht n hn
  have htag : tagIsLegal t := by simpa [tagIsLegal] using ht
  have hlen : lenIsLegal n := by
    simp only [List.mem_cons, List.not_mem_nil, or_false] at hn
    rcases hn with rfl | rfl <;> simp [lenIsLegal]
  exact ⟨htag, nonce_8 htag, rfl, (ready_loaded i htag (nonce_8 htag) hlen).2, answers_loaded i t 8#32 n⟩

/-- After reset no command that needs something is ready (R132). -/
theorem witness_MetRequirementsMeanSuccess :
    State.reset.block.fault = false ∧ ¬ State.reset.block.ready .kdf ∧ ¬ State.reset.block.ready .dsub ∧
    ¬ State.reset.block.ready .dpad := by
  simp [State.reset, Block.reset, Block.ready, keyIsLoaded]

/-- The ends of the nonce lengths of a long tag. -/
theorem witness_DpadLeavesTheSliceOfTheBlock :
    nonceIsLegal (loaded 96#32 1#32 0#32).block.taglen (loaded 96#32 1#32 0#32).block.nonceLen ∧
    nonceIsLegal (loaded 128#32 16#32 0#32).block.taglen (loaded 128#32 16#32 0#32).block.nonceLen := by
  simp [nonceIsLegal, loaded]

theorem witness_StepRunsTheDecodedCommand :
    (pending State.reset [.write 0x0004 4 0x00000001#32]).accesses = .write 0x0004 4 0x00000001#32 :: [] ∧
    decode 0x00000001#32 = .instr .mulmod := ⟨rfl, by decide⟩

theorem witness_IllegalWordFaultsEop :
    (pending State.reset [.write 0x0004 4 0x00000101#32]).accesses = .write 0x0004 4 0x00000101#32 :: [] ∧
    0x00000101#32 ∉ [0x00000001#32, 0x00000002#32, 0x00000003#32, 0x00000004#32, 0x00000005#32, 0x00000006#32,
      0x00000007#32, 0x00000008#32, 0x0000000F#32] ∧ State.reset.block.fault = false := ⟨rfl, by decide, rfl⟩

theorem witness_FaultedBlockIgnoresCommands :
    faulted.block.fault = true ∧ 0x00000001#32 ≠ 0x0000000F#32 ∧ Reg.taglen ≠ .cmd ∧ faulted.block.FlagsAgree ∧
    (pending faulted [.write 0x0004 4 1#32]).accesses = .write 0x0004 4 1#32 :: [] ∧
    (pending faulted [.write 0x0010 4 0x40#32]).accesses = .write (offset .taglen) 4 0x40#32 :: [] :=
  ⟨rfl, by decide, by decide, ⟨by decide, by decide⟩, rfl, rfl⟩

/-- A first failing check of each code, at the values next to the legal ones; and the same with the key alone missing. -/
theorem witness_FirstFailingCheckDecidesTheFault :
    (loaded 0#32 0#32 0#32).block.firstFault .kdf .eLen ∧ (loaded 0#32 0#32 1073#32).block.firstFault .kdf .eLen ∧
    Block.firstFault .kdf { Block.reset with len := 1072#32 } .eKey ∧
    (loaded 31#32 0#32 0#32).block.firstFault .dsub1 .eTaglen ∧
    Block.firstFault .dsub { Block.reset with taglen := 128#32 } .eKey ∧
    (loaded 33#32 0#32 0#32).block.firstFault .dpad .eTaglen ∧ (loaded 32#32 7#32 0#32).block.firstFault .dpad .eNonce ∧
    (loaded 96#32 0#32 0#32).block.firstFault .dpad .eNonce ∧ (loaded 128#32 17#32 0#32).block.firstFault .dpad .eNonce ∧
    Block.firstFault .dpad { Block.reset with taglen := 64#32, nonceLen := 8#32 } .eKey := by
  simp [Block.firstFault, loaded, lenIsLegal, tagIsLegal, nonceIsLegal, keyIsLoaded, Block.reset]

/-- The faults that `FirstFailingCheckDecidesTheFault` and `CipherFailFaultsEcipher` speak of are next states. -/
theorem witness_faults_taken :
    shows (exec .kdf State.reset) (fun t => (t.block.fault, t.block.err)) = some (true, .eLen) ∧
    shows (exec .kdf (lapsing (loaded 0#32 0#32 1#32) ⟨fixtureKey, kdfInput 1#64 1⟩ .fail))
      (fun t => (t.block.fault, t.block.err)) = some (true, .eCipher) := by decide +kernel

/-- The first request lapses. -/
theorem lapses_first (s : State) (i : Instr) (q : CipherRequest) (rest : List CipherRequest) (lapse : CipherLapse)
    (h : commandRequests i s.block = q :: rest) : (lapsing s q lapse).portLapses i [] q lapse :=
  ⟨⟨rest, h⟩, by simp, by simp [lapsing]⟩

theorem witness_CipherFailFaultsEcipher :
    (loaded 32#32 8#32 1#32).block.fault = false ∧ (loaded 32#32 8#32 1#32).block.ready .kdf ∧
    (lapsing (loaded 32#32 8#32 1#32) ⟨fixtureKey, kdfInput 1#64 1⟩ .fail).portLapses .kdf []
      ⟨fixtureKey, kdfInput 1#64 1⟩ .fail :=
  ⟨rfl, (ready_loaded .kdf (.inl rfl) (.inl ⟨.inl rfl, rfl⟩) (by simp [lenIsLegal])).2, lapses_first _ _ _ [] _ rfl⟩

theorem witness_SilentResponderHangsTheCommand :
    (loaded 32#32 8#32 1#32).block.fault = false ∧ (loaded 32#32 8#32 1#32).block.ready .kdf ∧
    (lapsing (loaded 32#32 8#32 1#32) ⟨fixtureKey, kdfInput 1#64 1⟩ .silent).portLapses .kdf []
      ⟨fixtureKey, kdfInput 1#64 1⟩ .silent :=
  ⟨rfl, (ready_loaded .kdf (.inl rfl) (.inl ⟨.inl rfl, rfl⟩) (by simp [lenIsLegal])).2, lapses_first _ _ _ [] _ rfl⟩

/-- The 73rd and last request of `DSUB` lapses, the 72 before it are answered. -/
theorem witness_last_request_lapses :
    (lapsing (loaded 32#32 8#32 1#32) ⟨fixtureKey, kdfInput 4#64 1⟩ .fail).portLapses .dsub
      ((commandRequests .dsub (loaded 32#32 8#32 1#32).block).take 72) ⟨fixtureKey, kdfInput 4#64 1⟩ .fail := by
  have h : ((commandRequests .dsub (loaded 32#32 8#32 1#32).block).take 72).all
      (fun q => ([((⟨fixtureKey, kdfInput 4#64 1⟩ : CipherRequest), CipherLapse.fail)].lookup q).isNone) = true := by decide +kernel
  refine ⟨⟨[], by decide +kernel⟩, fun p hp => ?_, by simp [lapsing]⟩
  have := List.all_eq_true.mp h p hp
  simpa [State.answered, lapsing] using this

theorem witness_OnlyAResetClearsAFault :
    faulted.block.fault = true ∧ (pending faulted [.rst]).accesses = .rst :: [] ∧
    (pending faulted [.write 0x0004 4 0x0000000F#32]).accesses = .write 0x0004 4 0x0000000F#32 :: [] ∧
    step faulted = .next faulted ∧ (∀ input rest, faulted.accesses = input :: rest → ¬ isReset input) :=
  ⟨rfl, rfl, rfl, rfl, fun _ _ h => by cases h⟩

theorem witness_MulmodLeavesTheExactResidue :
    faulted.block.fault = true ∧ (withOperands (-1#128) (-1#128)).block.fault = false := ⟨rfl, rfl⟩

/-- `A = P + 1` and `A = 1`; `B = 2^128 - 1` and `B = 158`. -/
theorem witness_MulmodOperandsActAsTheirResidues :
    (withOperands 0xFFFFFFFFFFFFFFFFFFFFFFFFFFFFFF62#128 (-1#128)).block.fault = false ∧
    (withOperands 1#128 158#128).block.fault = false ∧
    (withOperands 1#128 158#128).block.a.toNat =
      (withOperands 0xFFFFFFFFFFFFFFFFFFFFFFFFFFFFFF62#128 (-1#128)).block.a.toNat % (2 ^ 128 - 159) ∧
    (withOperands 1#128 158#128).block.b.toNat =
      (withOperands 0xFFFFFFFFFFFFFFFFFFFFFFFFFFFFFF62#128 (-1#128)).block.b.toNat % (2 ^ 128 - 159) := by
  refine ⟨rfl, rfl, ?_, ?_⟩ <;> decide +kernel

theorem witness_MulmodIsCanonicalAndCommutative :
    (withOperands 5#128 1#128).block.fault = false ∧ (withOperands 1#128 5#128).block.fault = false ∧
    (withOperands 1#128 5#128).block.a = (withOperands 5#128 1#128).block.b ∧
    (withOperands 1#128 5#128).block.b = (withOperands 5#128 1#128).block.a ∧
    (withOperands 5#128 1#128).block.b = 1#128 := ⟨rfl, rfl, rfl, rfl, rfl⟩

theorem witness_DistinctStreamsNeverCollide :
    Function.Injective ((fun _ x => x : Bytes16 → Bytes16 → Bytes16) fixtureKey) ∧ 2 ^ 64 - 1 < 2 ^ 64 ∧ 0 < 2 ^ 64 ∧
    ((0#64, 2 ^ 64 - 1) : DWord × Nat) ≠ (0#64, 0) := ⟨fun _ _ h => h, by decide, by decide, by decide⟩

theorem witness_KdfIsPrefixConsistent :
    (loaded 32#32 8#32 1#32).block.fault = false ∧ (loaded 32#32 8#32 1072#32).block.fault = false ∧
    (loaded 32#32 8#32 1#32).block.ready .kdf ∧ (loaded 32#32 8#32 1072#32).block.ready .kdf ∧
    (loaded 32#32 8#32 1#32).portAnswers .kdf ∧ (loaded 32#32 8#32 1072#32).portAnswers .kdf ∧
    (loaded 32#32 8#32 1072#32).block.key = (loaded 32#32 8#32 1#32).block.key ∧
    (loaded 32#32 8#32 1072#32).block.stream = (loaded 32#32 8#32 1#32).block.stream ∧
    (loaded 32#32 8#32 1#32).block.len.toNat ≤ (loaded 32#32 8#32 1072#32).block.len.toNat :=
  ⟨rfl, rfl, ⟨rfl, by simp [lenIsLegal, loaded]⟩, ⟨rfl, by simp [lenIsLegal, loaded]⟩, fun _ _ => rfl, fun _ _ => rfl,
    rfl, rfl, by simp [loaded]⟩

/-- `DSUB1` at the shortest tag length against `DSUB` at the longest, and the same for the other banks. -/
theorem witness_SmallerVariantIsAPrefixOfTheLarger :
    ∀ i ∈ [Instr.dsub1, .dsub2, .dsub3a, .dsub3b, .dsub],
      (loaded 32#32 8#32 1#32).block.fault = false ∧ (loaded 128#32 8#32 1#32).block.fault = false ∧
      (loaded 32#32 8#32 1#32).block.ready i ∧ (loaded 128#32 8#32 1#32).block.ready .dsub ∧
      (loaded 32#32 8#32 1#32).portAnswers i ∧ (loaded 128#32 8#32 1#32).portAnswers .dsub ∧
      (loaded 128#32 8#32 1#32).block.key = (loaded 32#32 8#32 1#32).block.key ∧
      (loaded 32#32 8#32 1#32).block.taglen.toNat < (loaded 128#32 8#32 1#32).block.taglen.toNat := by
  intro i _
  have hlen : lenIsLegal 1#32 := by simp [lenIsLegal]
  exact ⟨rfl, rfl, (ready_loaded i (.inl rfl) (nonce_8 (.inl rfl)) hlen).2,
    (ready_loaded .dsub (.inr (.inr (.inr rfl))) (nonce_8 (.inr (.inr (.inr rfl)))) hlen).2, fun _ _ => rfl, fun _ _ => rfl,
    rfl, by simp [loaded]⟩

/-- The shortest and the longest layer-1 key. -/
theorem witness_Layer1WordsAreRawStreamWords :
    (loaded 32#32 8#32 1024#32).block.ready .dsub1 ∧ (loaded 32#32 8#32 1024#32).block.ready .kdf ∧
    (loaded 32#32 8#32 1024#32).portAnswers .dsub1 ∧ (loaded 32#32 8#32 1024#32).portAnswers .kdf ∧
    (loaded 32#32 8#32 1024#32).block.stream = 1#64 ∧
    (loaded 32#32 8#32 1024#32).block.len.toNat = 4 * (256 + ((loaded 32#32 8#32 1024#32).block.taglen.toNat / 32 - 1) * 4) ∧
    (loaded 128#32 8#32 1072#32).block.len.toNat =
      4 * (256 + ((loaded 128#32 8#32 1072#32).block.taglen.toNat / 32 - 1) * 4) :=
  ⟨⟨rfl, .inl rfl⟩, ⟨rfl, by simp [lenIsLegal, loaded]⟩, fun _ _ => rfl, fun _ _ => rfl, rfl, by simp [loaded],
    by simp [loaded]⟩

/-- The nonces `...68` to `...6b` of section 6.2: quarters of one block, and halves of one block. -/
theorem witness_NeighbouringNoncesShareOneBlock :
    let s (taglen : Word) (last : Byte) : State :=
      { loaded taglen 8#32 1#32 with
        block := { (loaded taglen 8#32 1#32).block with
          nonce := bytes16 [0x62, 0x63, 0x64, 0x65, 0x66, 0x67, 0x68, last] } }
    (s 32#32 0x68#8).block.ready .dpad ∧ (s 32#32 0x6b#8).block.ready .dpad ∧ (s 64#32 0x68#8).block.ready .dpad ∧
    (s 64#32 0x69#8).block.ready .dpad ∧ (s 32#32 0x68#8).portAnswers .dpad ∧ (s 32#32 0x6b#8).portAnswers .dpad ∧
    nonce64 (s 32#32 0x68#8).block / 4 = nonce64 (s 32#32 0x6b#8).block / 4 ∧
    nonce64 (s 64#32 0x68#8).block / 2 = nonce64 (s 64#32 0x69#8).block / 2 :=
  ⟨⟨rfl, .inl rfl, .inl ⟨.inl rfl, rfl⟩⟩, ⟨rfl, .inl rfl, .inl ⟨.inl rfl, rfl⟩⟩, ⟨rfl, .inr (.inl rfl), .inl ⟨.inr rfl, rfl⟩⟩,
    ⟨rfl, .inr (.inl rfl), .inl ⟨.inr rfl, rfl⟩⟩, fun _ _ => rfl, fun _ _ => rfl, by decide +kernel, by decide +kernel⟩

/-- `NONCE0 = 0x01FFFFFF` against `0x01000000`, `NONCE_LEN = 1` (section 6.3). -/
theorem witness_PadDependsOnTheNonceInUseOnly :
    let s (rest : Byte) : State :=
      { loaded 128#32 1#32 1#32 with
        block := { (loaded 128#32 1#32 1#32).block with nonce := bytes16 [0x01, rest, rest, rest] } }
    (s 0xFF#8).block.ready .dpad ∧ (s 0#8).block.ready .dpad ∧ (s 0xFF#8).portAnswers .dpad ∧ (s 0#8).portAnswers .dpad ∧
    (s 0#8).block.key = (s 0xFF#8).block.key ∧
    ∀ j, j < (s 0xFF#8).block.nonceLen.toNat → bufRead (s 0#8).block.nonce j = bufRead (s 0xFF#8).block.nonce j := by
  refine ⟨⟨rfl, .inr (.inr (.inr rfl)), ?_⟩, ⟨rfl, .inr (.inr (.inr rfl)), ?_⟩, fun _ _ => rfl, fun _ _ => rfl, rfl, ?_⟩
  · exact .inr ⟨.inr rfl, by simp [loaded], by simp [loaded]⟩
  · exact .inr ⟨.inr rfl, by simp [loaded], by simp [loaded]⟩
  · intro j hj
    have : j = 0 := by simpa [loaded] using hj
    subst this
    decide +kernel

/-- Two states that differ in what `MULMOD` does not read, and a next state of it. -/
theorem witness_CommandsReadAndWriteOnlyTheirRow :
    readsAgree .mulmod State.reset.block (loaded 32#32 8#32 1#32).block ∧
    (loaded 32#32 8#32 1#32).block.fault = State.reset.block.fault ∧ (loaded 32#32 8#32 1#32).lapses = State.reset.lapses ∧
    ∃ t, exec .mulmod State.reset = .next t := ⟨⟨rfl, rfl⟩, rfl, rfl, _, exec_mulmod rfl⟩

theorem witness_RepeatedCommandLeavesTheBlockUnchanged :
    ∃ t, exec .kdf (loaded 32#32 8#32 17#32) = .next t ∧ t.block.done = true ∧ (loaded 32#32 8#32 17#32).block.fault = false :=
  ⟨_, exec_of_answered rfl ⟨rfl, by simp [lenIsLegal, loaded]⟩ (answers_loaded _ _ _ _), rfl, rfl⟩

theorem witness_CommandsKeepInputsAndWritesKeepResults :
    Instr.mulmod ≠ .srst ∧ (∃ t, exec .mulmod State.reset = .next t) ∧ Reg.l1k 0 ≠ .cmd ∧
    (pending State.reset [.write 0x0400 4 1#32]).accesses = .write (offset (.l1k 0)) 4 1#32 :: [] :=
  ⟨by decide, ⟨_, exec_mulmod rfl⟩, by decide, rfl⟩

/-- The ends of the unmapped ranges, and the mapped offsets beside them. -/
theorem witness_AddressMapIsOneToOne :
    (∀ off ∈ [0x0090, 0x00FC, 0x0160, 0x017C, 0x0290, 0x03FC, 0x0830, 0x0BFC, 0x1030, 0x1FFC],
      off < 0x2000 ∧ off % 4 = 0 ∧ regAt off = none) ∧
    ∀ off ∈ [0x008C, 0x0100, 0x015C, 0x0180, 0x028C, 0x0400, 0x082C, 0x0C00, 0x102C],
      off < 0x2000 ∧ off % 4 = 0 ∧ regAt off ≠ none := by decide +kernel

theorem witness_ReadsReturnTheMappedRegisters :
    (pending State.reset [.read 0x102C 4]).accesses = .read (0x0C00 + 4 * 267) 4 :: [] ∧
    (pending State.reset [.read 0x007C 4]).accesses = .read (0x0070 + 4 * 3) 4 :: [] ∧
    (pending State.reset [.read 0x015C 4]).accesses = .read (0x0104 + 8 * 11) 4 :: [] ∧
    (pending State.reset [.read 0x027C 4]).accesses = .read (0x0184 + 8 * 31) 4 :: [] := ⟨rfl, rfl, rfl, rfl⟩

theorem witness_WritesStoreTheMappedRegisters :
    (pending State.reset [.write 0x003C 4 1#32]).accesses = .write (0x0030 + 4 * 3) 4 1#32 :: [] ∧
    decode 0x00000008#32 = .instr .dpad ∧ decode 0x00000010#32 = .illegal .noSuchOpcode ∧ access (.obuf 267) = .ro :=
  ⟨rfl, by decide, by decide, rfl⟩

theorem witness_UndefinedAccessesAreRefused :
    ((2 : Nat) ≠ 4 ∨ 0x0004 % 4 ≠ 0) ∧ unmapped 0x0090 ∧ unmapped 0x1FFC ∧ 0x0090 % 4 = 0 ∧ access .status = .ro ∧
    access (.key 0) = .wo ∧ (pending State.reset [.read 0x0090 4]).accesses = .read 0x0090 4 :: [] :=
  ⟨by decide, by simp [unmapped], by simp [unmapped], rfl, rfl, rfl, rfl⟩

/-- The last unmapped word of the window, the first word beyond it, and a halfword at each. -/
theorem witness_RefusalsNameTheirReason :
    (pending State.reset [.read 0x1FFC 4]).accesses = .read 0x1FFC 4 :: [] ∧ 0x1FFC % 4 = 0 ∧ unmapped 0x1FFC ∧
    (pending State.reset [.write 0x2000 4 0#32]).accesses = .write 0x2000 4 0#32 :: [] ∧ 0x2000 % 4 = 0 ∧
    ¬ unmapped 0x2000 ∧ (pending State.reset [.read 0x1FFC 2]).accesses = .read 0x1FFC 2 :: [] ∧
    (pending State.reset [.read 0x2000 2]).accesses = .read 0x2000 2 :: [] :=
  ⟨rfl, rfl, by simp [unmapped], rfl, rfl, by simp [unmapped], rfl, rfl⟩

/-- A step that issues requests, with a responder that has a lapse. -/
theorem witness_StepsKeepTheResponder :
    ∃ t, step (lapsing (pending (loaded 32#32 8#32 1#32) [.write 0x0004 4 2#32]) ⟨fixtureKey, kdfInput 1#64 1⟩ .fail) =
      .next t := by
  rw [step_input (s := lapsing (pending (loaded 32#32 8#32 1#32) [.write 0x0004 4 2#32]) _ _) (rest := []) rfl]
  exact ⟨_, (hostWrite_cmd 2#32 _).trans ((runCommand_instr (i := .kdf) (by decide)).trans
    (exec_of_fail (sent := []) (q := ⟨fixtureKey, kdfInput 1#64 1⟩) rfl ⟨rfl, by simp [lenIsLegal, loaded, lapsing, pending]⟩
      ⟨⟨[], rfl⟩, by simp, by simp [lapsing]⟩))⟩

theorem witness_ReadsRevealNothingOfTheKey :
    (pending (loaded 0#32 0#32 0#32) [.read 0x0030 4]).accesses = .read 0x0030 4 :: [] ∧
    ∃ t, step (pending (loaded 0#32 0#32 0#32) [.read 0x0030 4]) = .next t := ⟨rfl, _, hostRead_offset (.key 0) _⟩

theorem witness_StepsTakeOneAccessInOrder :
    State.reset.accesses = [] ∧ (pending State.reset [.rst]).accesses = .rst :: [] ∧
    (∃ t, step (pending State.reset [.rst]) = .next t) ∧ ∃ t, step (pending State.reset [.read 0x0008 4]) = .next t :=
  ⟨rfl, rfl, ⟨_, rfl⟩, _, hostRead_offset .status _⟩

/-- `LDNONCE` with 1 byte and with 16. -/
theorem witness_ScriptLinesLoadAndReadOperands :
    (ScriptLine.ldnonce [0x01#8]).wellFormed = true ∧ (ScriptLine.ldnonce (List.replicate 16 0#8)).wellFormed = true ∧
    (pending State.reset (expand (.ldkey fixtureKey) ++ [.rst])).accesses = expand (.ldkey fixtureKey) ++ [.rst] :=
  ⟨by decide, by decide, rfl⟩

/-- A state that meets the three invariants, and a step of it. -/
theorem witness_invariants :
    (withOperands 3#128 5#128).block.FlagsAgree ∧ (withOperands 3#128 5#128).block.ResultsInRange ∧
    (withOperands 3#128 5#128).block.ZeroFilled ∧
    ∃ t, step (pending (withOperands 3#128 5#128) [.write 0x0004 4 1#32]) = .next t := by
  refine ⟨⟨by decide, by decide⟩, ⟨by decide, ?_, ?_⟩, ⟨by decide, ?_, .inl rfl, ?_, by decide, ?_, ?_, ?_, ?_⟩, ?_⟩
  · intro j hj
    rw [show bufRead (withOperands 3#128 5#128).block.l2k j = 0#64 from bufRead_bufFill _ hj, BitVec.zero_and]
  · intro j hj
    rw [show bufRead (withOperands 3#128 5#128).block.l3ak j = 0#64 from bufRead_bufFill _ hj]
    decide
  · intro j hj _; exact bufRead_bufFill _ hj
  · intro j hj _; exact bufRead_bufFill _ hj
  · intro j hj _; exact bufRead_bufFill _ hj
  · intro j hj _; exact bufRead_bufFill _ hj
  · intro j hj _; exact bufRead_bufFill _ hj
  · intro j hj _; exact bufRead_bufFill _ hj
  · rw [step_input (s := pending (withOperands 3#128 5#128) [.write 0x0004 4 1#32]) (rest := []) rfl]
    exact ⟨_, (hostWrite_cmd 1#32 _).trans ((runCommand_instr (i := .mulmod) (by decide)).trans (exec_mulmod rfl))⟩

end Sys2Proof.Tests
end

section
/-! PROOFS. What stands around the block (R7, R52): the list of lapses, which is kept, and the trace of requests, which
only grows. -/

namespace Sys2Proof.Machine

variable {s t : State} {i : Instr}

/-- The responder is a function of the lapses alone. -/
theorem State.cipher_congr (h : t.lapses = s.lapses) : t.cipher = s.cipher := by
  funext k x
  simp only [State.cipher, h]

/-! ## A command -/

theorem exec_lapses (h : exec i s = .next t) : t.lapses = s.lapses := by
  cases exec_ends h with
  | ignored _ _ ht => rw [ht]
  | checked code _ _ _ ht => rw [ht, State.raise_lapses]
  | failed sent q _ _ _ _ ht => rw [ht, State.raise_lapses]
  | succeeded _ _ _ ht => rw [ht, State.complete_lapses]

/-- A command adds to the trace its requests where it succeeds, and those up to the failing one where one fails. -/
theorem exec_requests (h : exec i s = .next t) : ∃ more, t.requests = s.requests ++ more := by
  cases exec_ends h with
  | ignored _ _ ht => exact ⟨[], by simp [ht]⟩
  | checked code _ _ _ ht => exact ⟨[], by simp [ht]⟩
  | failed sent q _ _ _ _ ht => exact ⟨sent ++ [q], by rw [ht]⟩
  | succeeded _ _ _ ht => exact ⟨commandRequests i s.block, by rw [ht]⟩

/-! ## A step: only a command reaches the cipher port -/

theorem step_lapses (h : step s = .next t) : t.lapses = s.lapses := by
  cases step_ends h with
  | command v i rest _ _ he => exact exec_lapses (s := { s with accesses := rest }) he
  | idle _ ht | read _ _ _ ht | wrote _ _ _ _ _ ht | illegalIgnored _ _ _ _ _ _ ht
  | illegalRaised _ _ _ _ _ _ ht | reset _ _ ht => rw [ht]

theorem step_requests (h : step s = .next t) : ∃ more, t.requests = s.requests ++ more := by
  cases step_ends h with
  | command v i rest _ _ he => exact exec_requests (s := { s with accesses := rest }) he
  | idle _ ht | read _ _ _ ht | wrote _ _ _ _ _ ht | illegalIgnored _ _ _ _ _ _ ht
  | illegalRaised _ _ _ _ _ _ ht | reset _ _ ht => exact ⟨[], by simp [ht]⟩

/-- Settles O41: no end of a step writes the lapses, on which alone the responder depends, and only a command's end
touches the trace, which it extends. -/
theorem stepsKeepTheResponder : Obligations.StepsKeepTheResponder := by
  intro s t h
  have hl : t.lapses = s.lapses := step_lapses h
  exact ⟨hl, State.cipher_congr hl, step_requests h⟩

end Sys2Proof.Machine
end

section
/-! PROOFS. The host port (R11, R12, R29, R48, R123): what each kind of access does to the inputs, the replies and the
result registers. -/

namespace Sys2Proof.Machine

variable {s t : State} {i : Instr} {b : Block}

/-! ## Inputs and results kept apart (R11) -/

theorem sameInputs_refl (b : Block) : sameInputs b b := ⟨rfl, rfl, rfl, rfl, rfl, rfl, rfl, rfl, rfl⟩

theorem sameInputs_raise (b : Block) (c : ErrCode) : sameInputs b (b.raise c) := sameInputs_refl b

theorem exec_sameInputs (hi : i ≠ .srst) (h : exec i s = .next t) : sameInputs s.block t.block := by
  cases exec_ends h with
  | ignored _ _ ht => rw [ht]; exact sameInputs_refl _
  | checked code _ _ _ ht => rw [ht]; exact sameInputs_raise _ _
  | failed sent q _ _ _ _ ht => rw [ht]; exact sameInputs_raise _ _
  | succeeded _ _ _ ht =>
    obtain ⟨hinputs, -, -⟩ := results_frame i s.block hi
    rw [ht]
    exact hinputs

theorem sameResults_refl (b : Block) : sameResults b b :=
  ⟨rfl, rfl, rfl, rfl, rfl, rfl, rfl, rfl, rfl, rfl, rfl, rfl, rfl, rfl, rfl, rfl⟩

/-- Each register of the window that takes a write is an input register. -/
theorem sameResults_writeReg (b : Block) (reg : Reg) (v : Word) : sameResults b (b.writeReg reg v) := by
  cases reg <;> exact sameResults_refl b

theorem step_write {reg : Reg} {v : Word} {rest : List HostInput} (hreg : reg ≠ .cmd)
    (hs : s.accesses = .write (offset reg) 4 v :: rest) :
    step s = .next { s with accesses := rest, block := s.block.writeReg reg v } :=
  (step_input hs).trans (hostWrite_offset hreg v _)

/-- Settles O34: no end of a command but `SRST` touches an input register, and a register write touches no other. -/
theorem commandsKeepInputsAndWritesKeepResults : Obligations.CommandsKeepInputsAndWritesKeepResults :=
  ⟨fun _ _ _ hi h => exec_sameInputs hi h,
    fun s reg v _ hreg hs => ⟨_, step_write hreg hs, sameResults_writeReg s.block reg v⟩⟩

/-! ## Reads (R43 (b), R45, R123) -/

/-- A read that has a meaning appends the register's value to the replies and does nothing else. -/
theorem step_read {off width : Nat} {rest : List HostInput} (hs : s.accesses = .read off width :: rest)
    (h : step s = .next t) : ∃ reg, off = offset reg ∧ width = 4 ∧
      t = { s with accesses := rest, replies := s.replies ++ [s.block.readReg reg] } := by
  rw [step_input hs] at h
  obtain ⟨reg, hoff, hwidth, hk⟩ := atReg_next h
  cases hk
  exact ⟨reg, hoff, hwidth, rfl⟩

/-- No register's value depends on the key bytes: the `KEY` registers read as zero (R43 (b)) and `KEYV` depends on
`KEYW` alone (R26). -/
theorem readReg_withKey (b : Block) (k : Bytes16) (reg : Reg) : { b with key := k }.readReg reg = b.readReg reg := by
  cases reg <;> rfl

/-- Settles O39: a read does the same on both machines, and the word it appends does not depend on the key. -/
theorem readsRevealNothingOfTheKey : Obligations.ReadsRevealNothingOfTheKey := by
  intro s t k off width rest hs h
  obtain ⟨reg, rfl, rfl, rfl⟩ := step_read hs h
  have hstep : step { s with block := { s.block with key := k } } = .next
      { s with accesses := rest, block := { s.block with key := k },
               replies := s.replies ++ [{ s.block with key := k }.readReg reg] } :=
    (step_input (s := { s with block := { s.block with key := k } }) hs).trans (hostRead_offset reg _)
  rw [readReg_withKey] at hstep
  exact ⟨_, hstep, rfl, rfl⟩

/-! ## One access a step, oldest first (R29, R48) -/

theorem exec_accesses (h : exec i s = .next t) : t.accesses = s.accesses := by
  cases exec_ends h with
  | ignored _ _ ht => rw [ht]
  | checked code _ _ _ ht => rw [ht, State.raise_accesses]
  | failed sent q _ _ _ _ ht => rw [ht, State.raise_accesses]
  | succeeded _ _ _ ht => rw [ht, State.complete_accesses]

theorem exec_replies (h : exec i s = .next t) : t.replies = s.replies := by
  cases exec_ends h with
  | ignored _ _ ht => rw [ht]
  | checked code _ _ _ ht => rw [ht, State.raise_replies]
  | failed sent q _ _ _ _ ht => rw [ht, State.raise_replies]
  | succeeded _ _ _ ht => rw [ht, State.complete_replies]

theorem step_accesses (h : step s = .next t) : t.accesses = s.accesses.tail := by
  cases step_ends h with
  | idle hs ht => rw [ht, hs, List.tail_nil]
  | command v i rest hs _ he => rw [exec_accesses he, hs, List.tail_cons]
  | read _ rest hs ht | wrote _ _ rest _ hs ht | illegalIgnored _ _ rest hs _ _ ht
  | illegalRaised _ _ rest hs _ _ ht | reset rest hs ht => rw [ht, hs, List.tail_cons]

theorem step_replies_of_not_read (hn : ∀ off width rest, s.accesses ≠ .read off width :: rest) (h : step s = .next t) :
    t.replies = s.replies := by
  cases step_ends h with
  | read reg rest hs _ => exact absurd hs (hn _ _ _)
  | command v i rest _ _ he => exact exec_replies (s := { s with accesses := rest }) he
  | idle _ ht | wrote _ _ _ _ _ ht | illegalIgnored _ _ _ _ _ _ ht | illegalRaised _ _ _ _ _ _ ht
  | reset _ _ ht => rw [ht]

/-- Settles O40: every end of a step drops the head of the queue, and only the end of a read touches the replies. -/
theorem stepsTakeOneAccessInOrder : Obligations.StepsTakeOneAccessInOrder := by
  refine ⟨fun s hs => step_idle hs, fun s t input rest hs h => ⟨?_, ?_, ?_⟩⟩
  · rw [step_accesses h, hs, List.tail_cons]
  · rintro off width rfl
    obtain ⟨reg, -, -, rfl⟩ := step_read hs h
    exact ⟨_, rfl⟩
  · intro hinput
    refine step_replies_of_not_read (fun off width rest' hread => ?_) h
    rw [hs] at hread
    exact hinput off width (List.cons.inj hread).1

end Sys2Proof.Machine
end

section
/-! PROOFS. What a reset leaves (R32, R105, R130). -/

namespace Sys2Proof.Machine

/-- The reset block holds the table of R32; `DONE` is 0 after the reset input and 1 after `SRST`. -/
theorem resetValues_reset (done : Bool) : resetValues { Block.reset with done := done } done :=
  have zeros {w n : Nat} (i : Nat) (hi : i < n) : bufRead (bufFill n (0#w)) i = 0#w := bufRead_bufFill _ hi
  have hwords : ∀ d : Bool, { Block.reset with done := d }.readReg .skn = 0#32 ∧
      { Block.reset with done := d }.readReg .status = (if d then 0x00000001#32 else 0x00000000#32) ∧
      { Block.reset with done := d }.readReg .err = 0#32 := by decide
  have ⟨hskn, hstatus, herr⟩ := hwords done
  ⟨zeros, rfl, rfl, zeros, rfl, rfl, rfl, rfl, rfl, rfl, zeros, rfl, zeros, zeros, zeros, zeros, hskn, zeros, rfl, rfl,
    rfl, hstatus, herr, rfl⟩

theorem step_rst {s : State} {rest : List HostInput} (hs : s.accesses = .rst :: rest) :
    step s = .next { s with accesses := rest, block := Block.reset } := step_input hs

theorem step_srst {s : State} {rest : List HostInput} (hs : s.accesses = .write 0x0004 4 0x0000000F#32 :: rest) :
    step s = .next { s with accesses := rest, block := { Block.reset with done := true } } := by
  have hd : decode 0x0000000F#32 = .instr .srst := by decide
  rw [step_input hs, perform, hostWrite_cmd, runCommand_instr hd]
  exact exec_srst

/-- Settles O10: both resets put the reset block in place, `DONE` apart. -/
theorem resetsLeaveTheTableOfValues : Obligations.ResetsLeaveTheTableOfValues :=
  ⟨resetValues_reset false, fun _ _ hs => ⟨_, step_rst hs, resetValues_reset false⟩,
    fun _ _ hs => ⟨_, step_srst hs, resetValues_reset true⟩⟩

end Sys2Proof.Machine
end

section
/-! PROOFS. A command reads and writes only its row (R33): whatever decides how a command ends is a function of what
the row lists. -/

namespace Sys2Proof.Machine

variable {i : Instr} {x y : Block} {s s' : State}

/-! ## What is read -/

theorem readsAgree_refl (i : Instr) (b : Block) : readsAgree i b b := by
  cases i with
  | mulmod => exact ⟨rfl, rfl⟩
  | kdf => exact ⟨rfl, rfl, rfl, rfl⟩
  | dsub1 | dsub2 | dsub3a | dsub3b | dsub => exact ⟨rfl, rfl, rfl⟩
  | dpad => exact ⟨rfl, rfl, rfl, rfl, rfl⟩
  | srst => trivial

theorem ready_congr (h : readsAgree i x y) : x.ready i ↔ y.ready i := by
  cases i with
  | mulmod | srst => rfl
  | kdf =>
    obtain ⟨-, hkeyw, -, hlen⟩ := h
    simp only [Block.ready, keyIsLoaded, hkeyw, hlen]
  | dsub1 | dsub2 | dsub3a | dsub3b | dsub =>
    obtain ⟨-, hkeyw, htag⟩ := h
    simp only [Block.ready, keyIsLoaded, hkeyw, htag]
  | dpad =>
    obtain ⟨-, hkeyw, htag, -, hnl⟩ := h
    simp only [Block.ready, keyIsLoaded, hkeyw, htag, hnl]

theorem firstFault_congr {code : ErrCode} (h : readsAgree i x y) : x.firstFault i code ↔ y.firstFault i code := by
  cases i with
  | mulmod | srst => rfl
  | kdf =>
    obtain ⟨-, hkeyw, -, hlen⟩ := h
    simp only [Block.firstFault, keyIsLoaded, hkeyw, hlen]
  | dsub1 | dsub2 | dsub3a | dsub3b | dsub =>
    obtain ⟨-, hkeyw, htag⟩ := h
    simp only [Block.firstFault, keyIsLoaded, hkeyw, htag]
  | dpad =>
    obtain ⟨-, hkeyw, htag, -, hnl⟩ := h
    simp only [Block.firstFault, keyIsLoaded, hkeyw, htag, hnl]

theorem padInput_congr (h : readsAgree .dpad x y) : padInput x = padInput y := by
  obtain ⟨-, -, htag, hnonce, hnl⟩ := h
  simp only [padInput, htag, hnonce, hnl]

theorem padBytes_congr (h : readsAgree .dpad x y) : padBytes x = padBytes y := by
  have hinput := padInput_congr h
  obtain ⟨hkey, -, htag, hnonce, -⟩ := h
  simp only [padBytes, padOutput, padSubIndex, hinput, hkey, htag, hnonce]

theorem commandRequests_congr (h : readsAgree i x y) : commandRequests i x = commandRequests i y := by
  cases i with
  | mulmod | srst => rfl
  | kdf =>
    obtain ⟨hkey, -, hstream, hlen⟩ := h
    simp only [commandRequests, hkey, hstream, hlen]
  | dsub1 | dsub2 | dsub3a | dsub3b | dsub =>
    obtain ⟨hkey, -, htag⟩ := h
    simp only [commandRequests, hkey, htag]
  | dpad =>
    have hinput := padInput_congr h
    obtain ⟨hkey, -⟩ := h
    simp only [commandRequests, hinput, hkey]

theorem answered_congr (hl : s'.lapses = s.lapses) (q : CipherRequest) : s.answered q ↔ s'.answered q := by
  rw [State.answered, State.answered, hl]

theorem portAnswers_congr (h : readsAgree i s.block s'.block) (hl : s'.lapses = s.lapses) :
    s.portAnswers i ↔ s'.portAnswers i := by
  simp only [State.portAnswers, commandRequests_congr h, answered_congr hl]

theorem portLapses_congr {sent : List CipherRequest} {q : CipherRequest} {l : CipherLapse}
    (h : readsAgree i s.block s'.block) (hl : s'.lapses = s.lapses) :
    s.portLapses i sent q l ↔ s'.portLapses i sent q l := by
  simp only [State.portLapses, commandRequests_congr h, answered_congr hl, hl]

/-! ## What is written -/

/-- The results on `y` are `y` with the results on `x` in the row of the command. -/
theorem results_eq_withResults (h : readsAgree i x y) : results i y = withResults i y (results i x) := by
  cases i with
  | srst => rfl
  | mulmod =>
    obtain ⟨ha, hb⟩ := h
    simp only [results, withResults, ha, hb]
  | kdf =>
    obtain ⟨hkey, -, hstream, hlen⟩ := h
    simp only [results, withResults, hkey, hstream, hlen, writeObuf]
  | dsub1 | dsub2 | dsub3a | dsub3b | dsub =>
    obtain ⟨hkey, -, htag⟩ := h
    simp only [results, withResults, hkey, htag, writeL1, writeL2, writeL3a, writeL3b, writeSubkeys]
  | dpad =>
    have hpad := padBytes_congr h
    obtain ⟨-, -, htag, -⟩ := h
    simp only [results, withResults, hpad, htag, writePad]

/-- `DONE` is in no row: taking the results from a block that is done or not is the same, once `DONE` is set. -/
theorem withResults_done (i : Instr) (x y : Block) :
    { withResults i x { y with done := true } with done := true } = { withResults i x y with done := true } := by
  cases i <;> rfl

/-- `exec_of_answered`, and `SRST` from a recorded fault too (R105). -/
theorem exec_of_success (hf : i = .srst ∨ s.block.fault = false) (hr : s.block.ready i) (ha : s.portAnswers i) :
    exec i s = .next { s.complete (results i s.block) with requests := s.requests ++ commandRequests i s.block } := by
  rcases hf with rfl | hf
  · simp [exec_srst, commandRequests, State.complete]
  · exact exec_of_answered hf hr ha

/-- Settles O32: each way a command ends on the one state is how it ends on the other, since the checks, the requests
and the results are functions of what the row lists. -/
theorem commandsReadAndWriteOnlyTheirRow : Obligations.CommandsReadAndWriteOnlyTheirRow := by
  intro i s s' t hreads hfault hl h
  cases exec_ends h with
  | ignored hi hf ht => exact ⟨s', exec_of_fault hi (hfault.trans hf), .inl ⟨hi, hf, ht, rfl⟩⟩
  | checked code _ hf hc ht =>
    subst ht
    exact ⟨_, exec_of_firstFault (hfault.trans hf) ((firstFault_congr hreads).mp hc), .inr (.inr ⟨rfl, rfl, rfl⟩)⟩
  | failed sent q _ hf hr hp ht =>
    subst ht
    have hr' := (ready_congr hreads).mp hr
    have hp' := (portLapses_congr hreads hl).mp hp
    exact ⟨_, exec_of_fail (hfault.trans hf) hr' hp', .inr (.inr ⟨rfl, rfl, rfl⟩)⟩
  | succeeded hf hr ha ht =>
    subst ht
    have hr' := (ready_congr hreads).mp hr
    have ha' := (portAnswers_congr hreads hl).mp ha
    refine ⟨_, exec_of_success (hf.imp_right hfault.trans) hr' ha', .inr (.inl ⟨rfl, ?_, ?_⟩)⟩
    · simp only [State.complete_block, withResults_done, ← results_eq_withResults (readsAgree_refl i s.block)]
    · simp only [State.complete_block, withResults_done, ← results_eq_withResults hreads]

end Sys2Proof.Machine
end

section
/-! PROOFS. The invariants of the block, the induction step once for all of them: a property of the result registers
that every end of a command and both resets keep is kept by every step. -/

namespace Sys2Proof.Machine

variable {P : Block → Prop} {s t : State} {i : Instr} {b : Block}

/-- What makes a property of the block one that holds at reset and that every step keeps. -/
structure BlockInvariant (P : Block → Prop) : Prop where
  /-- It speaks of result registers alone (R11). -/
  ofResults : ∀ {x y : Block}, sameResults x y → P x → P y
  raise     : ∀ {b : Block} {code : ErrCode}, code ≠ .eNone → P b → P (b.raise code)
  success   : ∀ {b : Block} {i : Instr}, i ≠ .srst → b.fault = false → b.ready i → P b →
                P { results i b with done := true }
  /-- After the reset input and after `SRST` (R32). -/
  reset     : ∀ done : Bool, P { Block.reset with done := done }

/-- No register check faults with the code 0 (R111). -/
theorem firstFault_ne_eNone {code : ErrCode} (h : b.firstFault i code) : code ≠ .eNone := by
  rintro rfl
  cases i <;> simp [Block.firstFault] at h

theorem BlockInvariant.exec (hP : BlockInvariant P) (hs : P s.block) (h : exec i s = .next t) : P t.block := by
  cases exec_ends h with
  | ignored _ _ ht => rw [ht]; exact hs
  | checked code _ _ hc ht => rw [ht]; exact hP.raise (firstFault_ne_eNone hc) hs
  | failed sent q _ _ _ _ ht => rw [ht]; exact hP.raise (by decide) hs
  | succeeded hf hr _ ht =>
    rw [ht]
    by_cases hi : i = .srst
    · rw [hi]; exact hP.reset true
    · exact hP.success hi (hf.resolve_left hi) hr hs

theorem BlockInvariant.step (hP : BlockInvariant P) (hs : P s.block) (h : step s = .next t) : P t.block := by
  cases step_ends h with
  | idle _ ht | read _ _ _ ht | illegalIgnored _ _ _ _ _ _ ht => rw [ht]; exact hs
  | wrote reg v _ _ _ ht => rw [ht]; exact hP.ofResults (sameResults_writeReg s.block reg v) hs
  | command v i rest _ _ he => exact hP.exec (s := { s with accesses := rest }) hs he
  | illegalRaised _ _ _ _ _ _ ht => rw [ht]; exact hP.raise (by decide) hs
  | reset _ _ ht => rw [ht]; exact hP.reset false

end Sys2Proof.Machine
end

section
/-! PROOFS. The flags agree (R26, R27). -/

namespace Sys2Proof.Machine

/-- A command that succeeds was not faulted and leaves `FAULT` and `ERR` alone; a fault clears `DONE` and sets both. -/
theorem flagsAgree_invariant : BlockInvariant Block.FlagsAgree where
  ofResults hsame h := by
    obtain ⟨-, -, -, -, -, -, -, -, -, -, -, -, -, hdone, hfault, herr⟩ := hsame
    exact ⟨hdone ▸ hfault ▸ h.notBoth, herr ▸ hfault ▸ h.errIff⟩
  raise hcode _ := ⟨by simp, by simpa using hcode⟩
  success {b i} hi hf _ h := by
    obtain ⟨-, hfault, herr⟩ := results_frame i b hi
    exact ⟨by simp [hfault, hf], by simpa only [hfault, herr] using h.errIff⟩
  reset done := ⟨by simp [Block.reset], by simp [Block.reset]⟩

/-- Settles O43, by the ends of a step: `flagsAgree_invariant` says what each keeps. -/
theorem stepsKeepTheFlagsInAgreement : Obligations.StepsKeepTheFlagsInAgreement :=
  fun _ _ hs h => flagsAgree_invariant.step hs h

end Sys2Proof.Machine
end

section
/-! PROOFS. The results lie in their ranges (R18, R72, R90, R91, R124). -/

namespace Sys2Proof.Machine

variable {n valid w : Nat} {b : Block} {st : List Byte}

/-! ## The values written -/

theorem mulmod_lt (x y : QWord) : (mulmod x y).toNat < Config.P := by
  rw [mulmod, BitVec.toNat_ofNat]
  exact (Nat.mod_le _ _).trans_lt (Nat.mod_lt _ (by norm_num [Config.P]))

theorem l2Entry_outside_mask (st : List Byte) (j : Nat) : l2Entry st j &&& ~~~Config.l2Mask = 0#64 := by
  rw [l2Entry, BitVec.and_assoc, BitVec.and_not_self]
  exact BitVec.and_zero

theorem l3aEntry_lt (st : List Byte) (j : Nat) : (l3aEntry st j).toNat < Config.P36 := by
  rw [l3aEntry_toNat]
  exact Nat.mod_lt _ (by norm_num)

/-- What holds of zero and of every entry of the stream holds of every entry of the bank. -/
theorem bank_forall {Q : BitVec w → Prop} {entry : Nat → BitVec w} (hzero : Q 0#w) (hentry : ∀ j, Q (entry j)) {j : Nat}
    (hj : j < n) : Q (bufRead (bank n valid entry) j) := by
  rw [bufRead_bank _ hj]
  split
  · exact hentry j
  · exact hzero

/-! ## Each write keeps the ranges -/

theorem resultsInRange_writeL2 (h : b.ResultsInRange) : (writeL2 n st b).ResultsInRange :=
  { h with layer2 := fun _ hj => bank_forall (Q := fun x => x &&& ~~~Config.l2Mask = 0#64) (BitVec.zero_and)
                                   (l2Entry_outside_mask st) hj }

theorem resultsInRange_writeL3a (h : b.ResultsInRange) : (writeL3a n st b).ResultsInRange :=
  { h with layer3a := fun _ hj => bank_forall (Q := fun x => x.toNat < Config.P36) (by decide) (l3aEntry_lt st) hj }

theorem resultsInRange_results {i : Instr} (hi : i ≠ .srst) (h : b.ResultsInRange) : (results i b).ResultsInRange := by
  cases i with
  | srst => exact absurd rfl hi
  | mulmod => exact { h with product := mulmod_lt b.a b.b }
  | dsub2 => exact resultsInRange_writeL2 h
  | dsub3a => exact resultsInRange_writeL3a h
  | dsub => exact { resultsInRange_writeL3a (resultsInRange_writeL2 h) with }
  | kdf | dsub1 | dsub3b | dpad => exact { h with }

theorem resultsInRange_invariant : BlockInvariant Block.ResultsInRange where
  ofResults hsame h := by
    obtain ⟨hr, -, -, -, hl2k, hl3ak, -⟩ := hsame
    exact ⟨hr ▸ h.product, hl2k ▸ h.layer2, hl3ak ▸ h.layer3a⟩
  raise _ h := { h with }
  success hi _ _ h := { resultsInRange_results hi h with }
  reset _ := {
    product := show (0#128).toNat < Config.P by decide
    layer2 := fun j hj => by
      rw [show bufRead Block.reset.l2k j = 0#64 from bufRead_bufFill _ hj, BitVec.zero_and]
    layer3a := fun j hj => by
      rw [show bufRead Block.reset.l3ak j = 0#64 from bufRead_bufFill _ hj]
      decide }

/-- Settles O44, by the ends of a step: `resultsInRange_invariant` says what each keeps. -/
theorem stepsKeepResultsInRange : Obligations.StepsKeepResultsInRange :=
  fun _ _ hs h => resultsInRange_invariant.step hs h

end Sys2Proof.Machine
end

section
/-! PROOFS. The containers are zero past their valid parts (R19 to R25). -/

namespace Sys2Proof.Machine

variable {n w valid : Nat} {b : Block} {st : List Byte}

/-! ## One container -/

/-- The container is zero from entry `valid` on; each container's clause of `Block.ZeroFilled` is of this form. -/
def ZeroFrom (valid : Nat) (x : Buf (BitVec w) n) : Prop := ∀ j, j < n → valid ≤ j → bufRead x j = 0#w

theorem zeroFrom_bank (entry : Nat → BitVec w) : ZeroFrom valid (bank n valid entry) := by
  intro j hj hvalid
  rw [bufRead_bank _ hj, if_neg (by omega)]

theorem zeroFrom_zeroPadded (h : st.length ≤ valid) : ZeroFrom valid (zeroPadded n st) := by
  intro j hj hvalid
  rw [bufRead_zeroPadded _ hj, byteAt_of_length_le (by omega)]

theorem zeroFrom_bufFill : ZeroFrom valid (bufFill n 0#w) := fun _ hj _ => bufRead_bufFill _ hj

/-! ## Each write keeps the containers zero past their valid parts -/

theorem zeroFilled_writeObuf (hl : lenIsLegal b.len) (hst : st.length ≤ b.len.toNat) (h : b.ZeroFilled) :
    (writeObuf st b).ZeroFilled :=
  { h with olenLe := hl.2, obufZero := zeroFrom_zeroPadded hst }

theorem l1Count_eq (h1 : 1 ≤ n) : l1Count n = l1Valid n := if_neg (by omega)

theorem zeroFilled_writeL1 (hn : 1 ≤ n ∧ n ≤ 4) (h : b.ZeroFilled) : (writeL1 n st b).ZeroFilled := by
  obtain ⟨-, h2i, h3ai, h3bi⟩ := h.sknLe
  have hi : (writeL1 n st b).l1i.toNat = n := ofNat_iters hn.2
  exact { h with
    sknLe := ⟨hi.trans_le hn.2, h2i, h3ai, h3bi⟩
    l1Zero := by rw [hi, l1Count_eq hn.1]; exact zeroFrom_bank _ }

theorem zeroFilled_writeL2 (hn : 1 ≤ n ∧ n ≤ 4) (h : b.ZeroFilled) : (writeL2 n st b).ZeroFilled := by
  obtain ⟨h1i, -, h3ai, h3bi⟩ := h.sknLe
  have hi : (writeL2 n st b).l2i.toNat = n := ofNat_iters hn.2
  exact { h with
    sknLe := ⟨h1i, hi.trans_le hn.2, h3ai, h3bi⟩
    l2Zero := by rw [hi]; exact zeroFrom_bank _ }

theorem zeroFilled_writeL3a (hn : 1 ≤ n ∧ n ≤ 4) (h : b.ZeroFilled) : (writeL3a n st b).ZeroFilled := by
  obtain ⟨h1i, h2i, -, h3bi⟩ := h.sknLe
  have hi : (writeL3a n st b).l3ai.toNat = n := ofNat_iters hn.2
  exact { h with
    sknLe := ⟨h1i, h2i, hi.trans_le hn.2, h3bi⟩
    l3aZero := by rw [hi]; exact zeroFrom_bank _ }

theorem zeroFilled_writeL3b (hn : 1 ≤ n ∧ n ≤ 4) (h : b.ZeroFilled) : (writeL3b n st b).ZeroFilled := by
  obtain ⟨h1i, h2i, h3ai, -⟩ := h.sknLe
  have hi : (writeL3b n st b).l3bi.toNat = n := ofNat_iters hn.2
  exact { h with
    sknLe := ⟨h1i, h2i, h3ai, hi.trans_le hn.2⟩
    l3bZero := by rw [hi]; exact zeroFrom_bank _ }

theorem padBytes_length_le (b : Block) : (padBytes b).length ≤ tagBytes b.taglen := by
  rw [padBytes, slice_length]
  exact Nat.min_le_left _ _

/-- A legal tag length makes a legal pad length (R25, R97). -/
theorem padlen_cases {t : Word} (ht : tagIsLegal t) :
    BitVec.ofNat 32 (tagBytes t) = 4#32 ∨ BitVec.ofNat 32 (tagBytes t) = 8#32 ∨
      BitVec.ofNat 32 (tagBytes t) = 12#32 ∨ BitVec.ofNat 32 (tagBytes t) = 16#32 := by
  rcases ht with rfl | rfl | rfl | rfl <;> decide

theorem zeroFilled_writePad (ht : tagIsLegal b.taglen) (hst : st.length ≤ tagBytes b.taglen) (h : b.ZeroFilled) :
    (writePad st b).ZeroFilled := by
  have hlen : (writePad st b).padlen.toNat = tagBytes b.taglen := by
    obtain ⟨-, h4⟩ := iters_range ht
    have htag := tagBytes_eq ht
    rw [writePad_padlen, BitVec.toNat_ofNat]
    omega
  exact { h with
    padLens := .inr (padlen_cases ht)
    padZero := by rw [hlen]; exact zeroFrom_zeroPadded hst }

/-! ## Each command and each step keeps them so -/

theorem zeroFilled_results {i : Instr} (hi : i ≠ .srst) (hr : b.ready i) (h : b.ZeroFilled) :
    (results i b).ZeroFilled := by
  cases i with
  | srst => exact absurd rfl hi
  | mulmod => exact { h with }
  | kdf =>
    obtain ⟨-, hlen⟩ := hr
    exact zeroFilled_writeObuf hlen (streamBytes_length ..).le h
  | dsub1 => exact zeroFilled_writeL1 (iters_range hr.2) h
  | dsub2 => exact zeroFilled_writeL2 (iters_range hr.2) h
  | dsub3a => exact zeroFilled_writeL3a (iters_range hr.2) h
  | dsub3b => exact zeroFilled_writeL3b (iters_range hr.2) h
  | dsub =>
    have hn := iters_range hr.2
    exact zeroFilled_writeL3b hn (zeroFilled_writeL3a hn (zeroFilled_writeL2 hn (zeroFilled_writeL1 hn h)))
  | dpad =>
    obtain ⟨-, htag, -⟩ := hr
    exact zeroFilled_writePad htag (padBytes_length_le b) h

theorem zeroFilled_invariant : BlockInvariant Block.ZeroFilled where
  ofResults hsame h := by
    obtain ⟨-, hobuf, holen, hl1k, hl2k, hl3ak, hl3bk, hl1i, hl2i, hl3ai, hl3bi, hpad, hpadlen, -⟩ := hsame
    exact ⟨holen ▸ h.olenLe, hobuf ▸ holen ▸ h.obufZero, hpadlen ▸ h.padLens, hpad ▸ hpadlen ▸ h.padZero,
      hl1i ▸ hl2i ▸ hl3ai ▸ hl3bi ▸ h.sknLe, hl1k ▸ hl1i ▸ h.l1Zero, hl2k ▸ hl2i ▸ h.l2Zero,
      hl3ak ▸ hl3ai ▸ h.l3aZero, hl3bk ▸ hl3bi ▸ h.l3bZero⟩
  raise _ h := { h with }
  success hi _ hr h := { zeroFilled_results hi hr h with }
  reset _ := ⟨Nat.zero_le _, zeroFrom_bufFill, .inl rfl, zeroFrom_bufFill,
    ⟨Nat.zero_le _, Nat.zero_le _, Nat.zero_le _, Nat.zero_le _⟩, zeroFrom_bufFill, zeroFrom_bufFill, zeroFrom_bufFill,
    zeroFrom_bufFill⟩

/-- Settles O45, by the ends of a step: `zeroFilled_invariant` says what each keeps. -/
theorem stepsKeepUnusedPartsZero : Obligations.StepsKeepUnusedPartsZero :=
  fun _ _ hs h => zeroFilled_invariant.step hs h

/-- Settles O46: the reset cases of the three invariants. -/
theorem resetMeetsTheInvariants : Obligations.ResetMeetsTheInvariants :=
  ⟨flagsAgree_invariant.reset false, resultsInRange_invariant.reset false, zeroFilled_invariant.reset false⟩

end Sys2Proof.Machine
end

section
/-! PROOFS. The address map (R41): the offsets without a register, and the accesses that are refused for want of one
(R40, R42, R43). -/

namespace Sys2Proof.Machine

variable {s : State} {off width : Nat}

/-! ## The offsets without a register -/

theorem not_unmapped_offset (reg : Reg) : ¬ unmapped (offset reg) := by
  unfold unmapped
  cases reg <;> simp only [offset] <;> omega

/-- Some register of a row stands at each multiple of its stride. -/
theorem exists_offset_of_row {base stride n : Nat} {name : Fin n → Reg}
    (hname : ∀ j, offset (name j) = base + stride * j.val)
    (h : base ≤ off ∧ (off - base) / stride < n ∧ (off - base) % stride = 0) : ∃ reg, offset reg = off := by
  obtain ⟨hbase, hlt, hmod⟩ := h
  have hdiv := Nat.div_add_mod (off - base) stride
  exact ⟨name ⟨_, hlt⟩, (hname _).trans (show base + stride * ((off - base) / stride) = off by omega)⟩

/-- Between the unmapped ranges the rows of the map follow one another without a gap. -/
theorem exists_offset_eq (hw : off < 0x2000) (ha : off % 4 = 0) (hu : ¬ unmapped off) : ∃ reg, offset reg = off := by
  have hsingle : ∀ w : Fin 12, ∃ p ∈ singleRegs, offset p.2 = 4 * w.val := by decide
  have hrows : off < 0x30 ∨ (0x30 ≤ off ∧ off < 0x40) ∨ (0x40 ≤ off ∧ off < 0x50) ∨ (0x50 ≤ off ∧ off < 0x60) ∨
      (0x60 ≤ off ∧ off < 0x70) ∨ (0x70 ≤ off ∧ off < 0x80) ∨ (0x80 ≤ off ∧ off < 0x90) ∨
      (0x100 ≤ off ∧ off < 0x160 ∧ off % 8 = 0) ∨ (0x104 ≤ off ∧ off < 0x160 ∧ off % 8 = 4) ∨
      (0x180 ≤ off ∧ off < 0x280 ∧ off % 8 = 0) ∨ (0x184 ≤ off ∧ off < 0x280 ∧ off % 8 = 4) ∨
      (0x280 ≤ off ∧ off < 0x290) ∨ (0x400 ≤ off ∧ off < 0x830) ∨ (0xC00 ≤ off ∧ off < 0x1030) := by
    unfold unmapped at hu
    omega
  rcases hrows with h | h | h | h | h | h | h | h | h | h | h | h | h | h
  · obtain ⟨p, -, hp⟩ := hsingle ⟨off / 4, by omega⟩
    exact ⟨p.2, by simp only at hp; omega⟩
  · exact exists_offset_of_row (name := .key) (fun _ => rfl) (by omega)
  · exact exists_offset_of_row (name := .nonce) (fun _ => rfl) (by omega)
  · exact exists_offset_of_row (name := .a) (fun _ => rfl) (by omega)
  · exact exists_offset_of_row (name := .b) (fun _ => rfl) (by omega)
  · exact exists_offset_of_row (name := .r) (fun _ => rfl) (by omega)
  · exact exists_offset_of_row (name := .pad) (fun _ => rfl) (by omega)
  · exact exists_offset_of_row (name := .l2kHi) (fun _ => rfl) (by omega)
  · exact exists_offset_of_row (name := .l2kLo) (fun _ => rfl) (by omega)
  · exact exists_offset_of_row (name := .l3akHi) (fun _ => rfl) (by omega)
  · exact exists_offset_of_row (name := .l3akLo) (fun _ => rfl) (by omega)
  · exact exists_offset_of_row (name := .l3bk) (fun _ => rfl) (by omega)
  · exact exists_offset_of_row (name := .l1k) (fun _ => rfl) (by omega)
  · exact exists_offset_of_row (name := .obuf) (fun _ => rfl) (by omega)

theorem regAt_of_unmapped (hu : unmapped off) : regAt off = none :=
  Option.eq_none_iff_forall_ne_some.mpr fun reg hreg =>
    not_unmapped_offset reg (offset_of_regAt hreg ▸ hu)

theorem unmapped_of_regAt_none (hw : off < 0x2000) (ha : off % 4 = 0) (hnone : regAt off = none) : unmapped off := by
  by_contra hu
  obtain ⟨reg, rfl⟩ := exists_offset_eq hw ha hu
  simp [regAt_offset] at hnone

/-- Settles O35: each register is found at its own offset and at no other, and the rows of the map leave no gap but
the unmapped ranges. -/
theorem addressMapIsOneToOne : Obligations.AddressMapIsOneToOne :=
  ⟨regAt_offset, fun _ _ => offset_of_regAt, fun _ hw ha => ⟨unmapped_of_regAt_none hw ha, regAt_of_unmapped⟩⟩

/-! ## The refusals, in their order (log entry 8) -/

theorem atReg_of_undefined (h : width ≠ 4 ∨ off % 4 ≠ 0) (k : Reg → Result) :
    State.atReg off width k = .refused (.undefinedAccess off width) := if_pos h

theorem atReg_of_outside (ha : off % 4 = 0) (hw : 0x2000 ≤ off) (k : Reg → Result) :
    State.atReg off 4 k = .refused (.outsideWindow off) := by
  rw [State.atReg, if_neg (by omega), if_pos (show Config.window ≤ off from hw)]

theorem atReg_of_unmapped (ha : off % 4 = 0) (hu : unmapped off) (k : Reg → Result) :
    State.atReg off 4 k = .refused (.unmappedOffset off) := by
  have hw : off < Config.window := by unfold unmapped at hu; unfold Config.window; omega
  rw [State.atReg, if_neg (by omega), if_neg (by omega), regAt_of_unmapped hu]

/-- What is refused at the window is refused to a read and to a write alike. -/
theorem step_refused {v : Word} {rest : List HostInput} {why : Refusal}
    (hs : s.accesses = .read off width :: rest ∨ s.accesses = .write off width v :: rest)
    (h : ∀ k, State.atReg off width k = .refused why) : step s = .refused why := by
  rcases hs with hs | hs
  · exact (step_input hs).trans (h _)
  · exact (step_input hs).trans (h _)

/-- Settles O47: the three tests of `State.atReg`, which stand before every read and write. -/
theorem refusalsNameTheirReason : Obligations.RefusalsNameTheirReason := by
  refine fun s rest off width v hs => ⟨fun h => ?_, ?_, ?_⟩
  · exact step_refused hs (atReg_of_undefined h)
  · rintro rfl ha hw
    exact step_refused hs (atReg_of_outside ha hw)
  · rintro rfl ha hu
    exact step_refused hs (atReg_of_unmapped ha hu)

theorem exists_refusal (h : width ≠ 4 ∨ off % 4 ≠ 0 ∨ unmapped off) :
    ∃ why, ∀ k, State.atReg off width k = .refused why := by
  by_cases hd : width ≠ 4 ∨ off % 4 ≠ 0
  · exact ⟨_, atReg_of_undefined hd⟩
  · obtain ⟨rfl, ha⟩ : width = 4 ∧ off % 4 = 0 := by omega
    exact ⟨_, atReg_of_unmapped ha (by simpa [ha] using h)⟩

/-! ## Read-only and write-only registers (R43 (a), (b)) -/

theorem writeReg_of_ro {reg : Reg} (h : access reg = .ro) (b : Block) (v : Word) : b.writeReg reg v = b := by
  cases reg with
  | taglen | nonceLen | len | streamHi | streamLo | key | nonce | a | b => cases h
  | _ => rfl

theorem ne_cmd_of_ro {reg : Reg} (h : access reg = .ro) : reg ≠ .cmd := by
  rintro rfl
  cases h

theorem readReg_of_wo {reg : Reg} (h : access reg = .wo) (b : Block) : b.readReg reg = 0#32 := by
  cases reg with
  | cmd | key => rfl
  | _ => cases h

theorem step_read_offset {reg : Reg} {rest : List HostInput} (hs : s.accesses = .read (offset reg) 4 :: rest) :
    step s = .next { s with accesses := rest, replies := s.replies ++ [s.block.readReg reg] } :=
  (step_input hs).trans (hostRead_offset reg _)

/-- Settles O38: the refusals of O47 whatever their name, and the registers that ignore a write or read as zero. -/
theorem undefinedAccessesAreRefused : Obligations.UndefinedAccessesAreRefused := by
  refine fun s rest off width v => ⟨fun h => ?_, fun reg hro hs => ?_, fun reg hwo hs => ?_⟩
  · obtain ⟨why, hwhy⟩ := exists_refusal h
    exact ⟨fun hs => ⟨why, step_refused (v := v) (.inl hs) hwhy⟩, fun hs => ⟨why, step_refused (.inr hs) hwhy⟩⟩
  · rw [step_write (ne_cmd_of_ro hro) hs, writeReg_of_ro hro]
  · rw [step_read_offset hs, readReg_of_wo hwo]

end Sys2Proof.Machine
end

section
/-! PROOFS. What a host read of each mapped register returns (R41, R44, R45). -/

namespace Sys2Proof.Machine

/-! ## The value of each composed register -/

theorem statusReg_toNat (b : Block) :
    b.statusReg.toNat = b.done.toNat + 2 * b.fault.toNat + 4 * (if b.keyw = 0b1111#4 then 1 else 0) := by
  have hbits : ∀ kv f d : Bool, (0#29 ++ BitVec.ofBool kv ++ BitVec.ofBool f ++ BitVec.ofBool d : Word).toNat =
      d.toNat + 2 * f.toNat + 4 * kv.toNat := by decide
  rw [Block.statusReg, hbits, Block.keyLoaded]
  split <;> simp [*]

theorem toNat_append_eq_add {m n : Nat} (x : BitVec m) (y : BitVec n) : (x ++ y).toNat = x.toNat * 2 ^ n + y.toNat := by
  rw [BitVec.toNat_append, ← Nat.shiftLeft_add_eq_or_of_lt y.isLt, Nat.shiftLeft_eq]

theorem errReg_toNat (b : Block) : b.errReg.toNat = b.err.code.toNat :=
  (toNat_append_eq_add 0#24 b.err.code).trans (by simp)

theorem sknReg_toNat (b : Block) :
    b.sknReg.toNat = b.l1i.toNat + 2 ^ 4 * b.l2i.toNat + 2 ^ 8 * b.l3ai.toNat + 2 ^ 12 * b.l3bi.toNat := by
  simp only [Block.sknReg, toNat_append_eq_add, BitVec.toNat_ofNat]
  omega

theorem numWord_two_high (x : DWord) : (numWord 2 x 0).toNat = x.toNat / 2 ^ 32 := by
  rw [numWord_toNat]
  omega

theorem numWord_two_low (x : DWord) : (numWord 2 x 1).toNat = x.toNat % 2 ^ 32 := by
  rw [numWord_toNat]
  omega

/-! ## The rows of the map -/

/-- A row of the map: the read at a register's offset returns the register's value. -/
theorem readsAs_offset (reg : Reg) {value : Block → Nat} (h : ∀ b, (b.readReg reg).toNat = value b) :
    readsAs (offset reg) value := fun s rest hs => by
  have hv : s.block.readReg reg = BitVec.ofNat 32 (value s.block) := by
    rw [← h s.block, BitVec.ofNat_toNat, BitVec.setWidth_eq]
  rw [step_read_offset hs, hv]

/-- Settles O36, row by row. -/
theorem readsReturnTheMappedRegisters : Obligations.ReadsReturnTheMappedRegisters := by
  refine ⟨readsAs_offset .id fun _ => rfl, readsAs_offset .cmd fun _ => rfl, readsAs_offset .status statusReg_toNat,
    readsAs_offset .err errReg_toNat, readsAs_offset .taglen fun _ => rfl, readsAs_offset .nonceLen fun _ => rfl,
    readsAs_offset .len fun _ => rfl, readsAs_offset .skn sknReg_toNat,
    readsAs_offset .streamHi fun _ => numWord_two_high _, readsAs_offset .streamLo fun _ => numWord_two_low _,
    readsAs_offset .olen fun _ => rfl, readsAs_offset .padlen fun _ => rfl,
    fun w hw => ?_, fun j hj => ?_, fun j hj => ?_, fun j hj => ?_⟩
  · exact ⟨readsAs_offset (.key ⟨w, hw⟩) fun _ => rfl,
      readsAs_offset (.nonce ⟨w, hw⟩) fun _ => bufWord_toNat _ _ (by omega),
      readsAs_offset (.a ⟨w, hw⟩) fun _ => numWord_toNat _ _ _,
      readsAs_offset (.b ⟨w, hw⟩) fun _ => numWord_toNat _ _ _,
      readsAs_offset (.r ⟨w, hw⟩) fun _ => numWord_toNat _ _ _,
      readsAs_offset (.pad ⟨w, hw⟩) fun _ => bufWord_toNat _ _ (by omega),
      readsAs_offset (.l3bk ⟨w, hw⟩) fun _ => rfl⟩
  · exact ⟨readsAs_offset (.l2kHi ⟨j, hj⟩) fun _ => numWord_two_high _,
      readsAs_offset (.l2kLo ⟨j, hj⟩) fun _ => numWord_two_low _⟩
  · exact ⟨readsAs_offset (.l3akHi ⟨j, hj⟩) fun _ => numWord_two_high _,
      readsAs_offset (.l3akLo ⟨j, hj⟩) fun _ => numWord_two_low _⟩
  · exact ⟨readsAs_offset (.l1k ⟨j, hj⟩) fun _ => rfl,
      readsAs_offset (.obuf ⟨j, hj⟩) fun _ => bufWord_toNat _ _ (by omega)⟩

end Sys2Proof.Machine
end

section
/-! PROOFS. What a host write of each mapped register does (R46). -/

namespace Sys2Proof.Machine

variable {s : State} {n : Nat} {v : Word} {rest : List HostInput}

/-! ## A write of `CMD` -/

theorem step_cmd (hs : s.accesses = .write 0x0004 4 v :: rest) : step s = runCommand v { s with accesses := rest } :=
  (step_input hs).trans (hostWrite_cmd v _)

theorem step_command {i : Instr} (hs : s.accesses = .write 0x0004 4 v :: rest) (hd : decode v = .instr i) :
    step s = exec i { s with accesses := rest } :=
  (step_cmd hs).trans (runCommand_instr hd)

theorem step_illegal {why : IllegalWord} (hs : s.accesses = .write 0x0004 4 v :: rest) (hd : decode v = .illegal why)
    (hf : s.block.fault = false) : step s = .next { s with accesses := rest, block := faultEntry s.block .eOp } :=
  (step_cmd hs).trans ((runCommand_illegal hd).trans (State.unlessFaulted_of_clear (s := { s with accesses := rest }) hf))

/-- Settles O3: a write at the offset of `CMD` is dispatched by the decoder. -/
theorem stepRunsTheDecodedCommand : Obligations.StepRunsTheDecodedCommand :=
  fun _ _ _ _ hs hd => step_command hs hd

/-! ## One word stored, the others kept -/

theorem numWordSet_setNumWord {words w : Nat} (x : BitVec (32 * words)) (hw : w < words) :
    numWordSet words w v x.toNat (setNumWord words x w v).toNat := by
  intro w' hw'
  have h := congrArg BitVec.toNat (numWord_setNumWord x w w' v hw hw')
  rw [apply_ite BitVec.toNat, numWord_toNat, numWord_toNat] at h
  exact h

theorem bufWordSet_setBufWord (x : Buf Byte n) (w : Nat) : bufWordSet w v x (setBufWord x w v) := by
  intro i hi
  rw [bufRead_setBufWord x w v hi, BitVec.extractLsb', Nat.shiftRight_eq_div_pow]

/-- The bit of a `KEY` word joins those of the words written before (R12). -/
theorem getLsbD_keyw_or (x : BitVec 4) {w k : Nat} (hk : k < 4) :
    (x ||| 1#4 <<< w).getLsbD k = (decide (k = w) || x.getLsbD k) := by
  have hbit : (1#4 <<< w).getLsbD k = decide (k = w) := by
    rw [Bool.eq_iff_iff]
    simp [hk]
    omega
  rw [BitVec.getLsbD_or, hbit, Bool.or_comm]

/-! ## The rows of the map -/

/-- A row of the map: the write at a register's offset changes the block as `Block.writeReg` says. -/
theorem writesAs_offset (reg : Reg) {change : Word → Block → Block → Prop} (hreg : reg ≠ .cmd)
    (h : ∀ v b, change v b (b.writeReg reg v)) : writesAs (offset reg) change :=
  fun s _ v hs => ⟨_, step_write hreg hs, h v s.block⟩

/-- Settles O37, row by row. -/
theorem writesStoreTheMappedRegisters : Obligations.WritesStoreTheMappedRegisters := by
  refine ⟨writesAs_offset .taglen nofun fun _ _ => rfl, writesAs_offset .nonceLen nofun fun _ _ => rfl,
    writesAs_offset .len nofun fun _ _ => rfl,
    writesAs_offset .streamHi nofun fun _ b => ⟨rfl, numWordSet_setNumWord (words := 2) b.stream (by decide)⟩,
    writesAs_offset .streamLo nofun fun _ b => ⟨rfl, numWordSet_setNumWord (words := 2) b.stream (by decide)⟩,
    fun w hw => ⟨?_, ?_, ?_, ?_⟩,
    fun s v rest hs => ⟨fun _ hd => step_command hs hd, fun _ hd hf => step_illegal hs hd hf⟩,
    fun reg hro => writesAs_offset reg (ne_cmd_of_ro hro) fun v b => writeReg_of_ro hro b v⟩
  · exact writesAs_offset (.key ⟨w, hw⟩) nofun fun _ b =>
      ⟨rfl, bufWordSet_setBufWord b.key w, fun _ hk => getLsbD_keyw_or b.keyw hk⟩
  · exact writesAs_offset (.nonce ⟨w, hw⟩) nofun fun _ b => ⟨rfl, bufWordSet_setBufWord b.nonce w⟩
  · exact writesAs_offset (.a ⟨w, hw⟩) nofun fun _ b => ⟨rfl, numWordSet_setNumWord (words := 4) b.a hw⟩
  · exact writesAs_offset (.b ⟨w, hw⟩) nofun fun _ b => ⟨rfl, numWordSet_setNumWord (words := 4) b.b hw⟩

end Sys2Proof.Machine
end

section
/-! PROOFS. The requests of each command (R53). -/

namespace Sys2Proof.Machine

@[simp] theorem derivationRequests_length (k : Bytes16) (idx : DWord) (n : Nat) :
    (derivationRequests k idx n).length = n / 16 + 1 := by
  simp [derivationRequests]

/-- Settles O31: a command that succeeds sends its requests, one that fails a check ends before the first of them, and
each derivation of `n` bytes has `n / 16 + 1`. -/
theorem commandsIssueTheirRequestSequence : Obligations.CommandsIssueTheirRequestSequence := by
  refine ⟨fun i s hf => ⟨fun hr ha => ⟨_, exec_of_answered hf hr ha, rfl⟩,
    fun code hc => ⟨_, exec_of_firstFault hf hc, rfl⟩⟩, fun b => ⟨rfl, rfl, ?_, ?_, ?_, ?_, ?_, ?_⟩⟩
  · exact derivationRequests_length ..
  · simp [commandRequests]
  all_goals
    intro ht
    simp [commandRequests, ht]

end Sys2Proof.Machine
end

section
/-! PROOFS. Layer-1 words are raw stream words (R44, R77, R84). -/

namespace Sys2Proof.Machine

/-- A whole word of the derived stream, as the host reads it from `OBUF` (R44 (a), R77). -/
theorem bufWord_zeroPadded_streamBytes (k : Bytes16) (idx : DWord) {m n w : Nat} (hm : 4 * w + 4 ≤ m)
    (hn : 4 * w + 4 ≤ n) : bufWord (zeroPadded m (streamBytes k idx n)) w = streamWord k idx (4 * w) := by
  have hbyte : ∀ i, i < 4 → bufRead (zeroPadded m (streamBytes k idx n)) (4 * w + i) = streamByte k idx (4 * w + i) :=
    fun i hi => (bufRead_zeroPadded _ (by omega)).trans (byteAt_streamBytes k idx (by omega))
  rw [bufWord_eq _ _ hm, hbyte 1 (by omega), hbyte 2 (by omega), hbyte 3 (by omega)]
  exact congrArg (fun x : Byte => x ++ streamByte k idx (4 * w + 1) ++ streamByte k idx (4 * w + 2) ++
    streamByte k idx (4 * w + 3)) (hbyte 0 (by omega))

/-- Settles O26: both words are the same word of one stream. -/
theorem layer1WordsAreRawStreamWords : Obligations.Layer1WordsAreRawStreamWords := by
  intro s s' hf hf' hr hr' ha ha' hkey hstream hlen
  obtain ⟨h1, h4⟩ := iters_range hr.2
  refine ⟨_, _, exec_of_answered hf hr ha, exec_of_answered hf' hr' ha', fun j hj => ?_⟩
  obtain ⟨hl1k, -, -⟩ := layer1Derived_writeL1 (k := s.block.key) (b := s.block) h1 h4
  calc bufWord (results .kdf s'.block).obuf j
      = streamWord s'.block.key s'.block.stream (4 * j) := bufWord_zeroPadded_streamBytes _ _ (by omega) (by omega)
    _ = streamWord s.block.key 1#64 (4 * j) := by rw [hkey, hstream]
    _ = bufRead (results .dsub1 s.block).l1k j := (hl1k j hj).symm

end Sys2Proof.Machine
end

section
/-! PROOFS. A successful command repeated (R54). -/

namespace Sys2Proof.Machine

variable {i : Instr} {x y : Block}

/-- What a command reads is among the input registers (R11, R33). -/
theorem readsAgree_of_sameInputs (i : Instr) (h : sameInputs x y) : readsAgree i x y := by
  obtain ⟨hkey, hkeyw, htag, hnonce, hnl, hstream, hlen, ha, hb⟩ := h
  cases i with
  | mulmod => exact ⟨ha, hb⟩
  | kdf => exact ⟨hkey, hkeyw, hstream, hlen⟩
  | dsub1 | dsub2 | dsub3a | dsub3b | dsub => exact ⟨hkey, hkeyw, htag⟩
  | dpad => exact ⟨hkey, hkeyw, htag, hnonce, hnl⟩
  | srst => trivial

theorem withResults_self (i : Instr) (x : Block) (done : Bool) :
    { withResults i { x with done := done } x with done := true } = { x with done := true } := by
  cases i <;> rfl

/-- The results derived from a block that holds them already are no change. -/
theorem results_results (hi : i ≠ .srst) (b : Block) :
    { results i { results i b with done := true } with done := true } = { results i b with done := true } := by
  obtain ⟨hinputs, -, -⟩ := results_frame i b hi
  have hreads : readsAgree i b { results i b with done := true } := readsAgree_of_sameInputs i hinputs
  rw [results_eq_withResults hreads, withResults_self]

/-- Settles O33: the one end of a command that sets `DONE` leaves the inputs, the checks and the responder's answers
as they were, and the results derived again are those that stand. -/
theorem repeatedCommandLeavesTheBlockUnchanged : Obligations.RepeatedCommandLeavesTheBlockUnchanged := by
  intro i s t h hdone hclear
  by_cases hi : i = .srst
  · subst hi
    cases h
    exact ⟨_, exec_srst, rfl⟩
  have hinputs : readsAgree i s.block t.block := readsAgree_of_sameInputs i (exec_sameInputs hi h)
  have hlapses := exec_lapses h
  cases exec_ends h with
  | ignored _ hf _ => simp [hclear] at hf
  | checked code _ _ _ ht => simp [ht] at hdone
  | failed sent q _ _ _ _ ht => simp [ht] at hdone
  | succeeded _ hr ha ht =>
    obtain ⟨-, hfault, -⟩ := results_frame i s.block hi
    have hblock : t.block = { results i s.block with done := true } := by rw [ht, State.complete_block]
    have hclear' : t.block.fault = false := by rw [hblock]; exact hfault.trans hclear
    refine ⟨_, exec_of_answered hclear' ((ready_congr hinputs).mp hr) ((portAnswers_congr hinputs hlapses).mp ha), ?_⟩
    rw [State.complete_block, hblock, results_results hi]

end Sys2Proof.Machine
end

section
/-! PROOFS. The decoder and the encoder (R60, R61, R62): the encoder gives the words of the opcode map and the decoder
compares with them alone. -/

namespace Sys2Proof.Machine

theorem roundTrip (i : Instr) : Laws.RoundTrip.Statement i := by
  cases i with
  | mulmod => exact Laws.RoundTrip.mulmod
  | kdf => exact Laws.RoundTrip.kdf
  | dsub1 => exact Laws.RoundTrip.dsub1
  | dsub2 => exact Laws.RoundTrip.dsub2
  | dsub3a => exact Laws.RoundTrip.dsub3a
  | dsub3b => exact Laws.RoundTrip.dsub3b
  | dsub => exact Laws.RoundTrip.dsub
  | dpad => exact Laws.RoundTrip.dpad
  | srst => exact Laws.RoundTrip.srst

theorem decode_encode (i : Instr) : decode (encode i) = .instr i := by
  obtain ⟨hdecode, -, -⟩ := roundTrip i (by cases i <;> rfl)
  exact hdecode

theorem lookup_of_decode {v : Word} {i : Instr} (h : decode v = .instr i) : opcodeMap.lookup v = some i := by
  unfold decode at h
  split at h
  · cases h; assumption
  · cases h

/-- Each row of the opcode map holds the encoding of its command (R61). -/
theorem eq_encode_of_mem_opcodeMap : ∀ row ∈ opcodeMap, row.1 = encode row.2 := by decide

theorem mem_of_lookup {v : Word} {i : Instr} {rows : List (Word × Instr)} (h : rows.lookup v = some i) :
    (v, i) ∈ rows := by
  obtain ⟨before, after, rfl, -⟩ := List.lookup_eq_some_iff.mp h
  simp

/-- Settles O2: a word that decodes to a command stands in the opcode map, and each row there is an encoding. -/
theorem onlyItsOwnWordDecodesToACommand : Obligations.OnlyItsOwnWordDecodesToACommand := by
  intro v i
  constructor
  · intro h
    exact eq_encode_of_mem_opcodeMap (v, i) (mem_of_lookup (lookup_of_decode h))
  · rintro rfl
    exact decode_encode i

/-- Settles O1: the nine words are the encodings of their commands. -/
theorem tableWordsDecodeToTheirCommands : Obligations.TableWordsDecodeToTheirCommands :=
  ⟨decode_encode .mulmod, decode_encode .kdf, decode_encode .dsub1, decode_encode .dsub2, decode_encode .dsub3a,
    decode_encode .dsub3b, decode_encode .dsub, decode_encode .dpad, decode_encode .srst⟩

end Sys2Proof.Machine
end

section
/-! PROOFS. The pseudo-instructions of a host script (R65): what a run of register writes or of reads does, and that
the words of an operand, written one by one, are the operand. -/

namespace Sys2Proof.Machine

variable {s : State} {rest : List HostInput} {words : Nat}

/-! ## Runs of accesses -/

/-- The block after register writes, oldest first. -/
def Block.writeRegs (b : Block) (ws : List (Reg × Word)) : Block := ws.foldl (fun b w => b.writeReg w.1 w.2) b

theorem run_writes (ws : List (Reg × Word)) (hcmd : ∀ w ∈ ws, w.1 ≠ .cmd)
    (hs : s.accesses = ws.map (fun w => writeOf w.1 w.2) ++ rest) :
    core.run ws.length s = .next { s with accesses := rest, block := s.block.writeRegs ws } := by
  induction ws generalizing s with
  | nil => subst hs; rfl
  | cons w ws ih =>
    obtain ⟨hw, hws⟩ := List.forall_mem_cons.mp hcmd
    exact (run_write ws.length hw hs).trans (ih hws rfl)

theorem run_reads (regs : List Reg) (hs : s.accesses = regs.map readOf ++ rest) :
    core.run regs.length s = .next { s with accesses := rest, replies := s.replies ++ regs.map s.block.readReg } := by
  induction regs generalizing s with
  | nil => subst hs; simp [Host.Core.run]
  | cons reg regs ih =>
    refine (run_read regs.length hs).trans ((ih rfl).trans ?_)
    simp

/-! ## An operand written word by word -/

/-- The wide number `x` after the words `ws` of `v` are written to it, in order (R44 (b), R46 (a)). -/
def setNumWords (ws : List (Fin words)) (v x : BitVec (32 * words)) : BitVec (32 * words) :=
  ws.foldl (fun y w => setNumWord words y w (numWord words v w)) x

theorem numWord_setNumWords (ws : List (Fin words)) (v x : BitVec (32 * words)) (w : Fin words) :
    numWord words (setNumWords ws v x) w = if w ∈ ws then numWord words v w else numWord words x w := by
  induction ws generalizing x with
  | nil => rfl
  | cons w' ws ih =>
    refine (ih _).trans ?_
    rw [numWord_setNumWord x w' w _ w'.isLt w.isLt]
    by_cases hw : w = w' <;> simp [hw, Fin.val_inj]

theorem setNumWords_all {ws : List (Fin words)} (hall : ∀ w, w ∈ ws) (v x : BitVec (32 * words)) :
    setNumWords ws v x = v :=
  num_eq_of_words fun w hw => (numWord_setNumWords ws v x ⟨w, hw⟩).trans (if_pos (hall _))

/-- The byte buffer `x` after the words `ws` of `v` are written to it, in order (R44 (a), R46 (a)). -/
def setBufWords (ws : List (Fin 4)) (v x : Bytes16) : Bytes16 :=
  ws.foldl (fun y w => setBufWord y w (bufWord v w)) x

theorem bufWord_setBufWords (ws : List (Fin 4)) (v x : Bytes16) (w : Fin 4) :
    bufWord (setBufWords ws v x) w = if w ∈ ws then bufWord v w else bufWord x w := by
  induction ws generalizing x with
  | nil => rfl
  | cons w' ws ih =>
    refine (ih _).trans ?_
    rw [bufWord_setBufWord x w' w _ (by omega)]
    by_cases hw : w = w' <;> simp [hw, Fin.val_inj]

theorem mem_fourWords : ∀ w, w ∈ fourWords := by decide

theorem setBufWords_all (v x : Bytes16) : setBufWords fourWords v x = v :=
  buf_eq_of_words (by decide) fun w hw =>
    (bufWord_setBufWords fourWords v x ⟨w, by omega⟩).trans (if_pos (mem_fourWords _))

/-! ## The lines that load -/

/-- Four `KEY` writes set all four bits of `KEYW` (R12). -/
theorem run_ldkey (bytes : Bytes16) (hs : s.accesses = expand (.ldkey bytes) ++ rest) :
    core.run 4 s = .next { s with accesses := rest, block := { s.block with key := bytes, keyw := 0b1111#4 } } := by
  have hkeyw : ∀ k : BitVec 4, k ||| 1#4 <<< 0 ||| 1#4 <<< 1 ||| 1#4 <<< 2 ||| 1#4 <<< 3 = 0b1111#4 := by decide
  have hblock : s.block.writeRegs (fourWords.map fun w => (.key w, bufWord bytes w)) =
      { s.block with key := setBufWords fourWords bytes s.block.key,
                     keyw := s.block.keyw ||| 1#4 <<< 0 ||| 1#4 <<< 1 ||| 1#4 <<< 2 ||| 1#4 <<< 3 } := rfl
  rw [setBufWords_all, hkeyw] at hblock
  rw [← hblock]
  exact run_writes (fourWords.map fun w => (.key w, bufWord bytes w)) (by simp) hs

theorem run_ldnonce (bytes : List Byte) (hs : s.accesses = expand (.ldnonce bytes) ++ rest) :
    core.run 5 s = .next { s with
      accesses := rest
      block := { s.block with nonce := zeroPadded 16 bytes, nonceLen := BitVec.ofNat 32 bytes.length } } := by
  rw [← setBufWords_all (zeroPadded 16 bytes) s.block.nonce]
  exact run_writes ((fourWords.map fun w : Fin 4 => (Reg.nonce w, bufWord (zeroPadded 16 bytes) w)) ++
    [(.nonceLen, BitVec.ofNat 32 bytes.length)]) (by simp [fourWords]) hs

theorem run_ld128_a (v : QWord) (hs : s.accesses = expand (.ld128 .a v) ++ rest) :
    core.run 4 s = .next { s with accesses := rest, block := { s.block with a := v } } := by
  rw [← setNumWords_all mem_fourWords v s.block.a]
  exact run_writes (fourWords.map fun w => (.a w, numWord 4 v w)) (by simp) hs

theorem run_ld128_b (v : QWord) (hs : s.accesses = expand (.ld128 .b v) ++ rest) :
    core.run 4 s = .next { s with accesses := rest, block := { s.block with b := v } } := by
  rw [← setNumWords_all mem_fourWords v s.block.b]
  exact run_writes (fourWords.map fun w => (.b w, numWord 4 v w)) (by simp) hs

theorem run_ld64 (v : DWord) (hs : s.accesses = expand (.ld64 v) ++ rest) :
    core.run 2 s = .next { s with accesses := rest, block := { s.block with stream := v } } := by
  rw [← setNumWords_all (words := 2) (ws := [0, 1]) (by decide) v s.block.stream]
  exact run_writes [(.streamHi, numWord 2 v 0), (.streamLo, numWord 2 v 1)] (by simp) hs

/-! ## The lines that read a number -/

theorem wordsValue_numWord_two (x : DWord) : wordsValue [numWord 2 x 0, numWord 2 x 1] = x.toNat := by
  simp only [wordsValue, List.foldl, numWord_toNat]
  omega

theorem wordsValue_numWord_four (x : QWord) :
    wordsValue [numWord 4 x 0, numWord 4 x 1, numWord 4 x 2, numWord 4 x 3] = x.toNat := by
  simp only [wordsValue, List.foldl, numWord_toNat]
  omega

/-- Settles O42, line by line. -/
theorem scriptLinesLoadAndReadOperands : Obligations.ScriptLinesLoadAndReadOperands := by
  refine fun s rest => ⟨run_ldkey, fun bytes hwf hs => ⟨_, run_ldnonce bytes hs, rfl, ?_, ?_⟩, run_ld128_a,
    run_ld128_b, run_ld64, fun hs => ⟨_, run_reads (fourWords.map .r) hs, wordsValue_numWord_four _⟩,
    fun j hs => ⟨_, run_reads (entryRegs (.l2k j)) hs, wordsValue_numWord_two _⟩,
    fun j hs => ⟨_, run_reads (entryRegs (.l3ak j)) hs, wordsValue_numWord_two _⟩⟩
  · have hlen : bytes.length ≤ 16 := (of_decide_eq_true hwf).2
    rw [BitVec.toNat_ofNat]
    omega
  · exact fun i hi => bufRead_zeroPadded bytes hi

end Sys2Proof.Machine
end

section
/-! PROOFS. The multiplier (R70 to R73): the exact residue, its zeros, and the reduction by folding. -/

namespace Sys2Proof.Machine

variable {a b a' b' : QWord} {x : Nat}

/-! ## The residue -/

/-- The remainder fits the 128 bits of `R`, so writing it loses nothing. -/
theorem mulmod_toNat (a b : QWord) : (mulmod a b).toNat = a.toNat * b.toNat % Config.P :=
  (BitVec.toNat_ofNat _ _).trans (Nat.mod_eq_of_lt ((Nat.mod_lt _ Laws.prime_P.pos).trans (by decide)))

theorem mulmod_comm (a b : QWord) : mulmod a b = mulmod b a := by rw [mulmod, mulmod, Nat.mul_comm]

theorem mulmod_one (a : QWord) : (mulmod a 1#128).toNat = a.toNat % Config.P := by
  rw [mulmod_toNat, BitVec.toNat_one (by decide), Nat.mul_one]

theorem mulmod_residues (ha : a'.toNat = a.toNat % Config.P) (hb : b'.toNat = b.toNat % Config.P) :
    mulmod a b = mulmod a' b' := by
  rw [mulmod, mulmod, ha, hb, ← Nat.mul_mod]

/-- `2 * P` does not fit 128 bits: the multiples of `P` among the operands are 0 and `P`. -/
theorem P_dvd_operand_iff (a : QWord) : Config.P ∣ a.toNat ↔ a.toNat = 0 ∨ a.toNat = Config.P := by
  have hlt := a.isLt
  rw [Config.P]
  omega

theorem mulmod_eq_zero_iff (a b : QWord) : mulmod a b = 0#128 ↔
    (a.toNat = 0 ∨ a.toNat = Config.P) ∨ (b.toNat = 0 ∨ b.toNat = Config.P) :=
  calc mulmod a b = 0#128
    _ ↔ Config.P ∣ a.toNat * b.toNat := by rw [← BitVec.toNat_inj, mulmod_toNat, Nat.dvd_iff_mod_eq_zero, BitVec.toNat_zero]
    _ ↔ Config.P ∣ a.toNat ∨ Config.P ∣ b.toNat := Laws.prime_P.dvd_mul
    _ ↔ _ := by rw [P_dvd_operand_iff, P_dvd_operand_iff]

/-- Settles O12: the command has no check, so it is ignored or it ends with its result. -/
theorem mulmodLeavesTheExactResidue : Obligations.MulmodLeavesTheExactResidue :=
  ⟨rfl, fun _ => ⟨exec_of_fault (by decide), fun hf => ⟨_, exec_mulmod hf, mulmod_toNat _ _, rfl⟩⟩⟩

/-- Settles O13: the remainder of a product is that of the product of the remainders. -/
theorem mulmodOperandsActAsTheirResidues : Obligations.MulmodOperandsActAsTheirResidues :=
  fun _ _ hf hf' ha hb => ⟨_, _, exec_mulmod hf, exec_mulmod hf', mulmod_residues ha hb, mulmod_toNat _ _⟩

/-- Settles O14: the zeros of the product are those of its factors because `P` is prime. -/
theorem mulmodIsCanonicalAndCommutative : Obligations.MulmodIsCanonicalAndCommutative := by
  intro s s' hf hf' ha hb
  refine ⟨_, _, exec_mulmod hf, exec_mulmod hf', mulmod_lt _ _, ?_, fun hone => ?_, mulmod_eq_zero_iff _ _⟩
  · calc mulmod s'.block.a s'.block.b
        = mulmod s.block.b s.block.a := by rw [ha, hb]
      _ = mulmod s.block.a s.block.b := mulmod_comm _ _
  · calc (mulmod s.block.a s.block.b).toNat
        = (mulmod s.block.a 1#128).toNat := by rw [hone]
      _ = s.block.a.toNat % Config.P := mulmod_one _

/-! ## The reduction by folding -/

/-- One fold of R73: the part above bit 128 is worth 159 times itself modulo `P`. -/
def foldOnce (x : Nat) : Nat := 159 * (x / 2 ^ 128) + x % 2 ^ 128

theorem foldMod_eq (x : Nat) : foldMod x =
    if Config.P ≤ foldOnce (foldOnce x) then foldOnce (foldOnce x) - Config.P else foldOnce (foldOnce x) := rfl

theorem foldOnce_mod (x : Nat) : foldOnce x % Config.P = x % Config.P := by
  have hsplit : x = foldOnce x + Config.P * (x / 2 ^ 128) := by
    unfold foldOnce Config.P
    omega
  conv_rhs => rw [hsplit, Nat.add_mul_mod_self_left]

/-- Two folds bring a number of 256 bits below `2 * P`. -/
theorem foldOnce_foldOnce_lt (hx : x < 2 ^ 256) : foldOnce (foldOnce x) < 2 * Config.P := by
  have hfirst : foldOnce x < 160 * 2 ^ 128 := by
    unfold foldOnce
    omega
  rw [foldOnce, Config.P]
  omega

theorem ite_sub_eq_mod {y n : Nat} (hy : y < 2 * n) : (if n ≤ y then y - n else y) = y % n := by
  split
  case isTrue h => rw [Nat.mod_eq_sub_mod h, Nat.mod_eq_of_lt (by omega)]
  case isFalse h => exact (Nat.mod_eq_of_lt (not_le.mp h)).symm

theorem foldMod_eq_mod (hx : x < 2 ^ 256) : foldMod x = x % Config.P := by
  rw [foldMod_eq, ite_sub_eq_mod (foldOnce_foldOnce_lt hx), foldOnce_mod, foldOnce_mod]

theorem product_lt (a b : QWord) : a.toNat * b.toNat < 2 ^ 256 :=
  (Nat.mul_lt_mul'' a.isLt b.isLt).trans_eq (by norm_num)

/-- Settles O15: a fold keeps the remainder, and after two of them one subtraction is enough. -/
theorem foldedReductionEqualsTheRemainder : Obligations.FoldedReductionEqualsTheRemainder :=
  fun a b => foldMod_eq_mod (product_lt a b)

end Sys2Proof.Machine
end

section
/-! PROOFS. The cipher input of a derived block (R75, R80): the index and the counter are read back from it, so no two
pairs share one. -/

namespace Sys2Proof.Machine

variable {n : Nat}

/-- A string that fills the buffer is not padded. -/
theorem toList_zeroPadded {s : List Byte} (h : s.length = n) : (zeroPadded n s).toList = s := by
  have hbuf : zeroPadded n s = ⟨s, h⟩ := buf_ext fun _ hi => bufRead_zeroPadded s hi
  rw [hbuf]

theorem slice_append_left (s t : List Byte) : slice (s ++ t) 0 s.length = s := by simp [slice]

theorem slice_append_right (s t : List Byte) : slice (s ++ t) s.length t.length = t := by simp [slice]

theorem toList_kdfInput (idx : DWord) (i : Nat) : (kdfInput idx i).toList = enc 8 idx.toNat ++ enc 8 i :=
  toList_zeroPadded (by simp)

/-- `enc64` loses nothing of a 64-bit number (R8). -/
theorem be_enc64 {v : Nat} (h : v < 2 ^ 64) : be (enc 8 v) = v :=
  (be_enc 8 v).trans (Nat.mod_eq_of_lt h)

theorem be_kdfInput_index (idx : DWord) (i : Nat) : be (slice (kdfInput idx i).toList 0 8) = idx.toNat := by
  have hslice : slice (enc 8 idx.toNat ++ enc 8 i) 0 8 = enc 8 idx.toNat := slice_append_left _ _
  rw [toList_kdfInput, hslice, be_enc64 idx.isLt]

theorem be_kdfInput_counter (idx : DWord) {i : Nat} (h : i < 2 ^ 64) : be (slice (kdfInput idx i).toList 8 8) = i := by
  have hslice : slice (enc 8 idx.toNat ++ enc 8 i) 8 8 = enc 8 i := slice_append_right _ _
  rw [toList_kdfInput, hslice, be_enc64 h]

/-- Settles O16: each half of the input is the big-endian encoding of its number, which decodes to it. -/
theorem cipherInputIsIndexThenCounter : Obligations.CipherInputIsIndexThenCounter :=
  fun idx i hi => ⟨be_kdfInput_index idx i, be_kdfInput_counter idx hi⟩

/-- `enc64(idx) || enc64(i)` is injective on pairs of 64-bit numbers (R80). -/
theorem kdfInput_injective {idx idx' : DWord} {i i' : Nat} (hi : i < 2 ^ 64) (hi' : i' < 2 ^ 64)
    (h : kdfInput idx i = kdfInput idx' i') : idx = idx' ∧ i = i' := by
  constructor
  · apply BitVec.eq_of_toNat_eq
    rw [← be_kdfInput_index idx i, h, be_kdfInput_index]
  · rw [← be_kdfInput_counter idx hi, h, be_kdfInput_counter idx' hi']

/-- Settles O17: equal cipher inputs come from one pair, and an injective cipher keeps distinct inputs apart. -/
theorem distinctStreamsNeverCollide : Obligations.DistinctStreamsNeverCollide := by
  intro E k hE idx idx' i i' hi hi' hne
  have hinput : kdfInput idx i ≠ kdfInput idx' i' := fun h => by
    obtain ⟨rfl, rfl⟩ := kdfInput_injective hi hi' h
    exact hne rfl
  exact ⟨hinput, hE.ne hinput⟩

end Sys2Proof.Machine
end

section
/-! PROOFS. The command `KDF` (R76 to R79). -/

namespace Sys2Proof.Machine

variable {s : State}

/-- Every command that is executed faults as R117 to R119 rule. -/
theorem exec_faultsAsRuled (i : Instr) (hf : s.block.fault = false) : faultsAsRuled i s :=
  ⟨fun _ hc => exec_of_firstFault hf hc, fun _ _ hr hp => exec_of_fail hf hr hp⟩

/-- `OBUF` after `KDF`: the stream up to `LEN`, then zeros (R77). -/
theorem bufRead_obuf_kdf (b : Block) {j : Nat} (hj : j < 1072) :
    bufRead (results .kdf b).obuf j = if j < b.len.toNat then streamByte b.key b.stream j else 0#8 := by
  have hread : bufRead (results .kdf b).obuf j = byteAt (streamBytes b.key b.stream b.len.toNat) j :=
    bufRead_zeroPadded _ hj
  rw [hread]
  split
  next hlt => exact byteAt_streamBytes _ _ hlt
  next hge => exact byteAt_of_length_le (by simpa using hge)

/-- Settles O18: a ready and answered `KDF` writes the stream of R76 and the zeros after it. -/
theorem kdfLeavesTheDerivedStream : Obligations.KdfLeavesTheDerivedStream := by
  refine ⟨by decide, fun s hf => ⟨exec_faultsAsRuled .kdf hf, fun hk hl ha => ?_⟩⟩
  refine ⟨_, exec_of_answered hf ⟨hk, hl⟩ ha, fun j hj => ?_, fun j hlen hj => ?_, rfl, rfl⟩
  · have hmax : s.block.len.toNat ≤ 1072 := hl.2
    exact (bufRead_obuf_kdf s.block (by omega)).trans (if_pos hj)
  · exact (bufRead_obuf_kdf s.block hj).trans (if_neg (by omega))

/-- Settles O19: byte `j` of the stream depends on the key, the index and `j` alone, and the length decides only how
many of them `OBUF` holds. -/
theorem kdfIsPrefixConsistent : Obligations.KdfIsPrefixConsistent := by
  intro s s' hf hf' hr hr' ha ha' hkey hstream hle
  refine ⟨_, _, exec_of_answered hf hr ha, exec_of_answered hf' hr' ha', fun j hj => ?_, fun hlen => ⟨?_, hlen⟩⟩
  · have hmax : s.block.len.toNat ≤ 1072 := hr.2.2
    calc bufRead (results .kdf s'.block).obuf j
        = streamByte s'.block.key s'.block.stream j := (bufRead_obuf_kdf _ (by omega)).trans (if_pos (by omega))
      _ = streamByte s.block.key s.block.stream j := by rw [hkey, hstream]
      _ = bufRead (results .kdf s.block).obuf j := ((bufRead_obuf_kdf _ (by omega)).trans (if_pos hj)).symm
  · refine buf_ext fun j hj => (bufRead_obuf_kdf s'.block hj).trans ?_
    rw [hkey, hstream, hlen]
    exact (bufRead_obuf_kdf s.block hj).symm

end Sys2Proof.Machine
end

section
/-! PROOFS. The subkey engine (R84 to R89): what each of the five commands leaves in the banks, `DSUB` as the four
others in sequence, and the smaller tag lengths against the larger. -/

namespace Sys2Proof.Machine

variable {i : Instr} {b b' : Block} {s : State} {k : Bytes16} {n n' j : Nat}

/-! ## A command that succeeds -/

/-- The state a command leaves where it succeeds (R33, R53). -/
def State.succeed (s : State) (i : Instr) : State :=
  { s.complete (results i s.block) with requests := s.requests ++ commandRequests i s.block }

/-- Such a command changes its row of R33, `DONE` and the trace, and nothing else. -/
theorem succeed_frame (i : Instr) (s : State) :
    s.succeed i = { s with block := { withResults i s.block (s.succeed i).block with done := true },
                           requests := s.requests ++ commandRequests i s.block } := by
  have hrow := withResults_done i s.block (results i s.block)
  rw [← results_eq_withResults (readsAgree_refl i s.block)] at hrow
  exact congrArg (fun b : Block => { s with block := b, requests := s.requests ++ commandRequests i s.block }) hrow.symm

/-- No fault is recorded, the checks of the command hold, and each of its requests is answered (R107, R132). -/
structure State.CanSucceed (s : State) (i : Instr) : Prop where
  clear : s.block.fault = false
  ready : s.block.ready i
  answered : s.portAnswers i

theorem State.CanSucceed.exec (h : s.CanSucceed i) : exec i s = .next (s.succeed i) :=
  exec_of_answered h.clear h.ready h.answered

/-- A command that succeeded does not stand in the way of another: it keeps the inputs, `FAULT` and the responder. -/
theorem State.CanSucceed.after {i' : Instr} (hi' : i' ≠ .srst) (h : s.CanSucceed i) : (s.succeed i').CanSucceed i := by
  obtain ⟨hinputs, hfault, -⟩ := results_frame i' s.block hi'
  have hreads : readsAgree i s.block (s.succeed i').block := readsAgree_of_sameInputs i hinputs
  exact ⟨hfault.trans h.clear, (ready_congr hreads).mp h.ready, (portAnswers_congr hreads rfl).mp h.answered⟩

/-! ## The banks after a derivation

The two commands that write a bank leave the same entries in it; the later writes of `DSUB` are to other banks. -/

theorem layer1Derived_succeed (hi : i ∈ [.dsub1, .dsub]) (ht : tagIsLegal s.block.taglen) :
    layer1Derived s.block.key (iters s.block.taglen) (s.succeed i).block := by
  obtain ⟨hlow, hhigh⟩ := iters_range ht
  obtain ⟨hvalid, hzero, hskn⟩ := layer1Derived_writeL1 (k := s.block.key) (b := s.block) hlow hhigh
  rcases List.mem_pair.mp hi with rfl | rfl <;> exact ⟨hvalid, hzero, hskn⟩

theorem layer2Derived_succeed (hi : i ∈ [.dsub2, .dsub]) (ht : tagIsLegal s.block.taglen) :
    layer2Derived s.block.key (iters s.block.taglen) (s.succeed i).block := by
  obtain ⟨-, hhigh⟩ := iters_range ht
  obtain ⟨hvalid, hzero, hskn⟩ := layer2Derived_writeL2 (k := s.block.key) (b := s.block) hhigh
  rcases List.mem_pair.mp hi with rfl | rfl <;> exact ⟨hvalid, hzero, hskn⟩

theorem layer3aDerived_succeed (hi : i ∈ [.dsub3a, .dsub]) (ht : tagIsLegal s.block.taglen) :
    layer3aDerived s.block.key (iters s.block.taglen) (s.succeed i).block := by
  obtain ⟨-, hhigh⟩ := iters_range ht
  obtain ⟨hvalid, hzero, hskn⟩ := layer3aDerived_writeL3a (k := s.block.key) (b := s.block) hhigh
  rcases List.mem_pair.mp hi with rfl | rfl <;> exact ⟨hvalid, hzero, hskn⟩

theorem layer3bDerived_succeed (hi : i ∈ [.dsub3b, .dsub]) (ht : tagIsLegal s.block.taglen) :
    layer3bDerived s.block.key (iters s.block.taglen) (s.succeed i).block := by
  obtain ⟨-, hhigh⟩ := iters_range ht
  obtain ⟨hvalid, hzero, hskn⟩ := layer3bDerived_writeL3b (k := s.block.key) (b := s.block) hhigh
  rcases List.mem_pair.mp hi with rfl | rfl <;> exact ⟨hvalid, hzero, hskn⟩

/-! ## The four layers one by one (R84 to R87) -/

/-- Settles O20: a ready and answered `DSUB1` writes the layer-1 bank. -/
theorem dsub1LeavesTheLayer1Key : Obligations.Dsub1LeavesTheLayer1Key :=
  ⟨by decide, fun s hf => ⟨exec_faultsAsRuled .dsub1 hf, fun hk ht ha =>
    have hok : s.CanSucceed .dsub1 := ⟨hf, ⟨hk, ht⟩, ha⟩
    ⟨_, hok.exec, layer1Derived_succeed (by decide) ht, succeed_frame _ s⟩⟩⟩

/-- Settles O21: a ready and answered `DSUB2` writes the layer-2 bank. -/
theorem dsub2LeavesTheMaskedLayer2Key : Obligations.Dsub2LeavesTheMaskedLayer2Key :=
  ⟨by decide, fun s hf => ⟨exec_faultsAsRuled .dsub2 hf, fun hk ht ha =>
    have hok : s.CanSucceed .dsub2 := ⟨hf, ⟨hk, ht⟩, ha⟩
    ⟨_, hok.exec, layer2Derived_succeed (by decide) ht, succeed_frame _ s⟩⟩⟩

/-- Settles O22: a ready and answered `DSUB3A` writes the layer-3a bank. -/
theorem dsub3aLeavesTheReducedLayer3aKey : Obligations.Dsub3aLeavesTheReducedLayer3aKey :=
  ⟨by decide, fun s hf => ⟨exec_faultsAsRuled .dsub3a hf, fun hk ht ha =>
    have hok : s.CanSucceed .dsub3a := ⟨hf, ⟨hk, ht⟩, ha⟩
    ⟨_, hok.exec, layer3aDerived_succeed (by decide) ht, succeed_frame _ s⟩⟩⟩

/-- Settles O23: a ready and answered `DSUB3B` writes the layer-3b bank. -/
theorem dsub3bLeavesTheLayer3bKey : Obligations.Dsub3bLeavesTheLayer3bKey :=
  ⟨by decide, fun s hf => ⟨exec_faultsAsRuled .dsub3b hf, fun hk ht ha =>
    have hok : s.CanSucceed .dsub3b := ⟨hf, ⟨hk, ht⟩, ha⟩
    ⟨_, hok.exec, layer3bDerived_succeed (by decide) ht, succeed_frame _ s⟩⟩⟩

/-! ## `DSUB` as four commands (R88) -/

/-- `DSUB` asks what the four commands ask, in layer order. -/
theorem commandRequests_dsub (b : Block) : commandRequests .dsub b =
    commandRequests .dsub1 b ++ commandRequests .dsub2 b ++ commandRequests .dsub3a b ++ commandRequests .dsub3b b := rfl

theorem portAnswers_dsub : s.portAnswers .dsub ↔
    s.portAnswers .dsub1 ∧ s.portAnswers .dsub2 ∧ s.portAnswers .dsub3a ∧ s.portAnswers .dsub3b := by
  simp only [State.portAnswers, commandRequests_dsub, List.forall_mem_append, and_assoc]

/-- The four write disjoint banks from inputs that none of them changes, and the trace grows by the same requests: the
two states are equal field by field. -/
theorem succeed_dsub (s : State) :
    (((s.succeed .dsub1).succeed .dsub2).succeed .dsub3a).succeed .dsub3b = s.succeed .dsub := by
  simp only [State.succeed, State.complete, results, writeSubkeys, writeL1, writeL2, writeL3a, writeL3b,
    commandRequests, List.append_assoc]

/-- Settles O24: each of the four succeeds after those before it, and `succeed_dsub` says where they end. -/
theorem dsubEqualsTheFourInSequence : Obligations.DsubEqualsTheFourInSequence := by
  refine ⟨by decide, fun s hf => ⟨exec_faultsAsRuled .dsub hf, fun hk ht ha => ?_⟩⟩
  obtain ⟨ha1, ha2, ha3a, ha3b⟩ := portAnswers_dsub.mp ha
  have hok : s.CanSucceed .dsub := ⟨hf, ⟨hk, ht⟩, ha⟩
  have h1 : s.CanSucceed .dsub1 := ⟨hf, ⟨hk, ht⟩, ha1⟩
  have h2 : (s.succeed .dsub1).CanSucceed .dsub2 := .after (by decide) ⟨hf, ⟨hk, ht⟩, ha2⟩
  have h3a : ((s.succeed .dsub1).succeed .dsub2).CanSucceed .dsub3a :=
    .after (by decide) (.after (by decide) ⟨hf, ⟨hk, ht⟩, ha3a⟩)
  have h3b : (((s.succeed .dsub1).succeed .dsub2).succeed .dsub3a).CanSucceed .dsub3b :=
    .after (by decide) (.after (by decide) (.after (by decide) ⟨hf, ⟨hk, ht⟩, ha3b⟩))
  have hlast := h3b.exec
  rw [succeed_dsub] at hlast
  have hframe := succeed_frame .dsub s
  rw [withResults] at hframe
  exact ⟨_, _, _, _, h1.exec, h2.exec, h3a.exec, hlast, hok.exec, layer1Derived_succeed (by decide) ht,
    layer2Derived_succeed (by decide) ht, layer3aDerived_succeed (by decide) ht,
    layer3bDerived_succeed (by decide) ht, hframe⟩

/-! ## A smaller tag length (R89)

An entry of a bank depends on the key and its index alone; the tag length decides only how many are valid. -/

theorem layer1Derived_prefix (h : layer1Derived k n b) (h' : layer1Derived k n' b') (hle : n ≤ n')
    (hj : j < 256 + (n - 1) * 4) : bufRead b'.l1k j = bufRead b.l1k j :=
  (h'.1 j (by omega)).trans (h.1 j hj).symm

theorem layer2Derived_prefix (h : layer2Derived k n b) (h' : layer2Derived k n' b') (hle : n ≤ n') (hj : j < 3 * n) :
    bufRead b'.l2k j = bufRead b.l2k j :=
  (h'.1 j (by omega)).trans (h.1 j hj).symm

theorem layer3aDerived_prefix (h : layer3aDerived k n b) (h' : layer3aDerived k n' b') (hle : n ≤ n')
    (hj : j < 8 * n) : bufRead b'.l3ak j = bufRead b.l3ak j :=
  BitVec.eq_of_toNat_eq ((h'.1 j (by omega)).trans (h.1 j hj).symm)

theorem layer3bDerived_prefix (h : layer3bDerived k n b) (h' : layer3bDerived k n' b') (hle : n ≤ n') (hj : j < n) :
    bufRead b'.l3bk j = bufRead b.l3bk j :=
  (h'.1 j (by omega)).trans (h.1 j hj).symm

theorem tagIsLegal_of_ready (hi : i ∈ [.dsub1, .dsub2, .dsub3a, .dsub3b, .dsub]) (hr : b.ready i) :
    tagIsLegal b.taglen := by
  cases i with
  | dsub1 | dsub2 | dsub3a | dsub3b | dsub => exact hr.2
  | mulmod | kdf | dpad | srst => simp at hi

/-- Settles O25, bank by bank: whichever command derived it, the bank is the one its layer describes. -/
theorem smallerVariantIsAPrefixOfTheLarger : Obligations.SmallerVariantIsAPrefixOfTheLarger := by
  intro i i' s s' hi hi' hf hf' hr hr' ha ha' hkey hlt
  have hok : s.CanSucceed i := ⟨hf, hr, ha⟩
  have hok' : s'.CanSucceed i' := ⟨hf', hr', ha'⟩
  have ht := tagIsLegal_of_ready hi hr
  have ht' := tagIsLegal_of_ready hi' hr'
  have hle : iters s.block.taglen ≤ iters s'.block.taglen := Nat.div_le_div_right hlt.le
  refine ⟨_, _, hok.exec, hok'.exec, fun h h' j hj => ?_, fun h h' j hj => ?_, fun h h' j hj => ?_,
    fun h h' j hj => ?_⟩
  · exact layer1Derived_prefix (layer1Derived_succeed h ht) (hkey ▸ layer1Derived_succeed h' ht') hle hj
  · exact layer2Derived_prefix (layer2Derived_succeed h ht) (hkey ▸ layer2Derived_succeed h' ht') hle hj
  · exact layer3aDerived_prefix (layer3aDerived_succeed h ht) (hkey ▸ layer3aDerived_succeed h' ht') hle hj
  · exact layer3bDerived_prefix (layer3bDerived_succeed h ht) (hkey ▸ layer3bDerived_succeed h' ht') hle hj

end Sys2Proof.Machine
end

section
/-! PROOFS. The pad (R96 to R98, R102): the block and the slice of it are functions of the key, the tag length and the
nonce in use, and the low bits of a short tag's nonce choose the slice alone. -/

namespace Sys2Proof.Machine

variable {b b' : Block} {t : Word} {d j : Nat}

/-! ## The pad that `DPAD` leaves (R97) -/

/-- `PAD` after `DPAD`: the slice of the output block, then zeros. -/
theorem bufRead_pad_dpad (b : Block) (hj : j < 16) : bufRead (results .dpad b).pad j =
    if j < tagBytes b.taglen then bufRead (padOutput b) (padSubIndex b * tagBytes b.taglen + j) else 0#8 :=
  (bufRead_zeroPadded (padBytes b) hj).trans (byteAt_slice ..)

/-- Writing `PADLEN` loses nothing. -/
theorem padlen_toNat (t : Word) : (BitVec.ofNat 32 (tagBytes t)).toNat = tagBytes t :=
  (BitVec.toNat_ofNat _ _).trans (Nat.mod_eq_of_lt ((Nat.div_le_self ..).trans_lt t.isLt))

theorem tagBytes_le (ht : tagIsLegal t) : tagBytes t ≤ 16 := by
  obtain ⟨-, hiters⟩ := iters_range ht
  rw [tagBytes_eq ht]
  omega

/-- Settles O27: a ready and answered `DPAD` writes the slice of R96 and the zeros after it. -/
theorem dpadLeavesTheSliceOfTheBlock : Obligations.DpadLeavesTheSliceOfTheBlock := by
  refine ⟨by decide, fun s hf => ⟨exec_faultsAsRuled .dpad hf, fun hk ht hn ha => ?_⟩⟩
  have hok : s.CanSucceed .dpad := ⟨hf, ⟨hk, ht, hn⟩, ha⟩
  refine ⟨_, hok.exec, fun j hj => ?_, fun j hlen hj => ?_, padlen_toNat _, succeed_frame .dpad s⟩
  · exact (bufRead_pad_dpad s.block (hj.trans_le (tagBytes_le ht))).trans (if_pos hj)
  · exact (bufRead_pad_dpad s.block hj).trans (if_neg hlen.not_gt)

/-! ## Short tags (R98)

Where the tag is short, the divisor of R96 is the number of slices that share one block. -/

/-- `t` is a short tag length and `d` its divisor. -/
def ShortTagDivisor (t : Word) (d : Nat) : Prop := t = 32#32 ∧ d = 4 ∨ t = 64#32 ∧ d = 2

theorem padDivisor_of_short (hd : ShortTagDivisor t d) :
    shortTag t = true ∧ padDivisor t = d ∧ tagBytes t = 16 / d := by
  rcases hd with ⟨rfl, rfl⟩ | ⟨rfl, rfl⟩ <;> decide

/-- A short tag's nonce in use is its 8 bytes (R99). -/
theorem nonceBytes_of_short (hd : ShortTagDivisor b.taglen d) (hr : b.ready .dpad) :
    b.nonceBytes = slice b.nonce.toList 0 8 := by
  obtain ⟨-, -, hn⟩ := hr
  have h8 : b.nonceLen = 8#32 := by rcases hd with ⟨ht, -⟩ | ⟨ht, -⟩ <;> simpa [nonceIsLegal, ht] using hn
  rw [Block.nonceBytes, nonceLen_of_short h8]

/-- The block asked for encodes the nonce rounded down to a multiple of the divisor (R96). -/
theorem padInput_of_short (hd : ShortTagDivisor b.taglen d) (hr : b.ready .dpad) :
    padInput b = zeroPadded 16 (enc 8 (d * (nonce64 b / d))) := by
  obtain ⟨hshort, hdiv, -⟩ := padDivisor_of_short hd
  have hbytes := nonceBytes_of_short hd hr
  obtain ⟨-, ht, hn⟩ := hr
  have hclear (n : Nat) : n ^^^ n % d = d * (n / d) := by
    rcases hd with ⟨-, rfl⟩ | ⟨-, rfl⟩
    · exact xor_mod_two_pow n 2
    · exact xor_mod_two_pow n 1
  rw [← paddedNonce_eq ht hn, paddedNonce, workNonce, if_pos hshort, subIndex, if_pos hshort, hdiv, hclear, hbytes,
    nonce64]

/-- The sub-index is the rest of the nonce (R96). -/
theorem padSubIndex_of_short (hd : ShortTagDivisor b.taglen d) (hr : b.ready .dpad) :
    padSubIndex b = nonce64 b % d := by
  obtain ⟨hshort, hdiv, -⟩ := padDivisor_of_short hd
  have hbytes := nonceBytes_of_short hd hr
  obtain ⟨-, ht, hn⟩ := hr
  rw [← subIndex_eq ht hn, subIndex, if_pos hshort, hdiv, hbytes, nonce64]

theorem bufRead_pad_of_short (hd : ShortTagDivisor b.taglen d) (hr : b.ready .dpad) (hj : j < 16 / d) :
    bufRead (results .dpad b).pad j = bufRead (padOutput b) (nonce64 b % d * (16 / d) + j) := by
  obtain ⟨-, -, hbytes⟩ := padDivisor_of_short hd
  rw [bufRead_pad_dpad b (hj.trans_le (Nat.div_le_self ..)), padSubIndex_of_short hd hr, hbytes, if_pos hj]

/-- Settles O28: the block depends on the quotient of the nonce by the divisor, and the rest chooses the slice. -/
theorem neighbouringNoncesShareOneBlock : Obligations.NeighbouringNoncesShareOneBlock := by
  intro s s' d hf hf' hr hr' ha ha' hkey htag hd hquot
  have hd' : ShortTagDivisor s'.block.taglen d := by rwa [htag]
  have hok : s.CanSucceed .dpad := ⟨hf, hr, ha⟩
  have hok' : s'.CanSucceed .dpad := ⟨hf', hr', ha'⟩
  have hinput : padInput s'.block = padInput s.block := by
    rw [padInput_of_short hd hr, padInput_of_short hd' hr', hquot]
  have hrequests : commandRequests .dpad s'.block = commandRequests .dpad s.block := by
    simp only [commandRequests, hkey, hinput]
  have houtput : padOutput s'.block = padOutput s.block := by rw [padOutput, padOutput, hkey, hinput]
  refine ⟨hinput, _, _, hok.exec, hok'.exec, rfl, congrArg (s'.requests ++ ·) hrequests,
    fun j hj => bufRead_pad_of_short hd hr hj, fun j hj => ?_⟩
  exact (bufRead_pad_of_short hd' hr' hj).trans (congrArg (bufRead · _) houtput)

/-! ## What the pad depends on (R102) -/

theorem nonceLen_le (h : nonceIsLegal t b.nonceLen) : b.nonceLen.toNat ≤ 16 := by
  rcases h with ⟨-, h8⟩ | ⟨-, -, hle⟩
  · exact (nonceLen_of_short h8).trans_le (by decide)
  · exact hle

theorem nonceBytes_congr (hle : b.nonceLen.toNat ≤ 16) (hlen : b'.nonceLen = b.nonceLen)
    (h : ∀ i, i < b.nonceLen.toNat → bufRead b'.nonce i = bufRead b.nonce i) : b'.nonceBytes = b.nonceBytes := by
  have hmap (x : Block) (hx : x.nonceLen = b.nonceLen) :
      x.nonceBytes = (List.range b.nonceLen.toNat).map (bufRead x.nonce) := by
    rw [Block.nonceBytes, hx, slice_eq_map _ _ _ (by rw [x.nonce.size]; omega)]
    simp
  rw [hmap b rfl, hmap b' hlen]
  exact List.map_congr_left fun i hi => h i (List.mem_range.mp hi)

/-- The pad is a function of the key, the tag length and the nonce in use (R96). -/
theorem padBytes_eq_padSlice (ht : tagIsLegal b.taglen) (hn : nonceIsLegal b.taglen b.nonceLen) :
    padBytes b =
      padSlice b.taglen b.nonceBytes (encrypt (padKey b.key) (paddedNonce b.taglen b.nonceBytes)) := by
  rw [padSlice, subIndex_eq ht hn, paddedNonce_eq ht hn, padBytes, padOutput]

/-- Settles O29: the last request is under `padKey`, and `padBytes_eq_padSlice` says what the pad depends on. -/
theorem padDependsOnTheNonceInUseOnly : Obligations.PadDependsOnTheNonceInUseOnly := by
  intro s s' hf hf' hr hr' ha ha' hkey
  have hok : s.CanSucceed .dpad := ⟨hf, hr, ha⟩
  have hok' : s'.CanSucceed .dpad := ⟨hf', hr', ha'⟩
  have hrequests : commandRequests .dpad s'.block =
      derivationRequests s.block.key 0#64 16 ++ [⟨padKey s.block.key, padInput s'.block⟩] := by
    rw [← hkey, commandRequests]
  refine ⟨_, _, padKey s.block.key, padInput s.block, padInput s'.block, hok.exec, hok'.exec, rfl,
    congrArg (s'.requests ++ ·) hrequests, fun htag hlen hbytes => ?_⟩
  obtain ⟨-, ht, hn⟩ := hr
  obtain ⟨-, ht', hn'⟩ := hr'
  have hnonce : s'.block.nonceBytes = s.block.nonceBytes := nonceBytes_congr (nonceLen_le hn) hlen hbytes
  have hpad : padBytes s'.block = padBytes s.block := by
    rw [padBytes_eq_padSlice ht hn, padBytes_eq_padSlice ht' hn', hkey, htag, hnonce]
  exact ⟨congrArg (zeroPadded 16) hpad, congrArg (fun t => BitVec.ofNat 32 (tagBytes t)) htag⟩

end Sys2Proof.Machine
end

section
/-! PROOFS. The system command and the words that run no command (R105 to R107): `SRST`, illegal words, and what a
recorded fault ignores. -/

namespace Sys2Proof.Machine

variable {s : State} {v : Word}

/-! ## Illegal words (R106) -/

theorem exists_illegal_of_not_mem (hv : v ∉ opcodeMap.map Prod.fst) : ∃ why, decode v = .illegal why := by
  cases hd : decode v with
  | illegal why => exact ⟨why, rfl⟩
  | instr i => exact absurd (List.mem_map_of_mem (mem_of_lookup (lookup_of_decode hd))) hv

/-- Settles O4: the nine words are the first column of the opcode map, and the decoder finds no other. -/
theorem illegalWordFaultsEop : Obligations.IllegalWordFaultsEop := by
  intro s v rest hs hv hf
  obtain ⟨why, hd⟩ := exists_illegal_of_not_mem hv
  exact ⟨step_illegal hs hd hf, rfl⟩

/-! ## While a fault is recorded (R107) -/

theorem runCommand_of_fault (hf : s.block.fault = true) (hv : v ≠ encode .srst) : runCommand v s = .next s := by
  cases hd : decode v with
  | illegal why => exact (runCommand_illegal hd).trans (State.unlessFaulted_of_fault hf)
  | instr i =>
    have hi : i ≠ .srst := by
      rintro rfl
      exact hv ((onlyItsOwnWordDecodesToACommand v .srst).mp hd)
    exact (runCommand_instr hd).trans (exec_of_fault hi hf)

theorem Block.FlagsAgree.done_eq_false {b : Block} (h : b.FlagsAgree) (hf : b.fault = true) : b.done = false :=
  Bool.eq_false_iff.mpr fun hdone => h.notBoth ⟨hdone, hf⟩

/-- The two low bits of `STATUS` are `FAULT` and `DONE` (R26). -/
theorem statusReg_low_bits (b : Block) :
    b.statusReg.extractLsb' 0 2 = BitVec.ofBool b.fault ++ BitVec.ofBool b.done := by
  have hbits : ∀ kv f d : Bool,
      (0#29 ++ BitVec.ofBool kv ++ BitVec.ofBool f ++ BitVec.ofBool d : Word).extractLsb' 0 2 =
        BitVec.ofBool f ++ BitVec.ofBool d := by decide
  exact hbits b.keyLoaded b.fault b.done

/-- Settles O5: a word that runs a command runs another than `SRST`, which the fault ignores as it ignores an illegal
word; a register write does not look at the fault. -/
theorem faultedBlockIgnoresCommands : Obligations.FaultedBlockIgnoresCommands := by
  refine fun s rest hf => ⟨fun v hv hs => ?_, fun reg v hreg hs => step_write hreg hs, fun hagree => ?_⟩
  · exact (step_cmd hs).trans (runCommand_of_fault hf hv)
  · have hdone : s.block.done = false := hagree.done_eq_false hf
    calc (s.block.readReg .status).extractLsb' 0 2
        = BitVec.ofBool s.block.fault ++ BitVec.ofBool s.block.done := statusReg_low_bits s.block
      _ = 0b10#2 := by rw [hf, hdone]; rfl

/-! ## `SRST` (R105) -/

/-- Settles O11: the reset block reads as the table of R32 says, and nothing of the block it replaces is left for a
second `SRST` to change. -/
theorem srstRestoresTheResetState : Obligations.SrstRestoresTheResetState := by
  obtain ⟨-, -, -, -, -, -, -, -, -, -, -, -, -, -, -, -, -, -, -, -, -, hstatus, herr, -⟩ := resetValues_reset true
  exact ⟨rfl, fun s => ⟨s.softReset, exec_srst, rfl, hstatus, herr, exec_srst⟩⟩

end Sys2Proof.Machine
end

section
/-! PROOFS. Faults and their order (R110 to R120): how a command comes to fault, and what ends a recorded fault. -/

namespace Sys2Proof.Machine

variable {i : Instr} {s t : State} {b : Block}

/-! ## How a command comes to fault (R117, R118) -/

/-- No register check faults with the code of the cipher port (R118). -/
theorem firstFault_ne_eCipher {code : ErrCode} (h : b.firstFault i code) : code ≠ .eCipher := by
  rintro rfl
  cases i <;> simp [Block.firstFault] at h

/-- A command that succeeds leaves no fault recorded. -/
theorem results_fault (hf : i = .srst ∨ b.fault = false) : (results i b).fault = false := by
  by_cases hi : i = .srst
  · rw [hi]
    rfl
  · obtain ⟨-, hfault, -⟩ := results_frame i b hi
    exact hfault.trans (hf.resolve_left hi)

/-- A command that takes a fault takes that of the first register check that fails, or `E_CIPHER` where all of them hold
and a request answers `CipherFail`. -/
theorem exec_takes_fault (hf : s.block.fault = false) (h : exec i s = .next t) (ht : t.block.fault = true) :
    (∃ code, s.block.firstFault i code ∧ t.block = s.block.raise code) ∨
    (s.block.ready i ∧ (∃ sent q, s.portLapses i sent q .fail) ∧ t.block = s.block.raise .eCipher) := by
  cases exec_ends h with
  | ignored _ hfault _ => exact absurd hfault (by simp [hf])
  | checked code _ _ hc hraise => exact .inl ⟨code, hc, by rw [hraise, State.raise_block]⟩
  | failed sent q _ _ hr hp hraise => exact .inr ⟨hr, ⟨sent, q, hp⟩, by rw [hraise, State.raise_block]⟩
  | succeeded hclear _ _ hdone =>
    rw [hdone] at ht
    exact absurd ht (by simp [results_fault hclear])

/-- Such a fault changes `DONE`, `FAULT` and `ERR` alone, and the code tells which of the two ways it was (R118, R119). -/
theorem exec_fault_code (hf : s.block.fault = false) (h : exec i s = .next t) (ht : t.block.fault = true) :
    t.block = s.block.raise t.block.err ∧ (t.block.err ≠ .eCipher → s.block.firstFault i t.block.err) ∧
      (t.block.err = .eCipher → s.block.ready i) := by
  rcases exec_takes_fault hf h ht with ⟨code, hc, hraise⟩ | ⟨hr, -, hraise⟩ <;> rw [hraise, Block.raise_err]
  · exact ⟨rfl, fun _ => hc, fun hcipher => absurd hcipher (firstFault_ne_eCipher hc)⟩
  · exact ⟨rfl, fun hne => absurd rfl hne, fun _ => hr⟩

/-- Settles O6: the first failing check decides the fault, and a command has no other way to fault but the cipher port
after its checks; the decoder settles `E_OP` before any command runs. -/
theorem firstFailingCheckDecidesTheFault : Obligations.FirstFailingCheckDecidesTheFault :=
  ⟨fun _ _ => ⟨exec_of_fault, fun hf => ⟨fun _ hc => exec_of_firstFault hf hc, fun _ h ht => exec_fault_code hf h ht⟩⟩,
    fun _ _ _ _ hs hd hf => step_illegal hs hd hf, fun _ _ => rfl⟩

/-- With no lapse listed the responder answers every request. -/
theorem not_portLapses_of_nil {sent : List CipherRequest} {q : CipherRequest} {l : CipherLapse} (hl : s.lapses = []) :
    ¬ s.portLapses i sent q l := by
  rintro ⟨-, -, hq⟩
  simp [hl] at hq

/-- Settles O7: the command stops at the failing request, and `E_CIPHER` has no other cause. -/
theorem cipherFailFaultsEcipher : Obligations.CipherFailFaultsEcipher := by
  refine fun i s hf => ⟨fun sent q hr hp => exec_of_fail hf hr hp, fun t hl h ht => ?_⟩
  rcases exec_takes_fault hf h ht with ⟨code, hc, hraise⟩ | ⟨-, ⟨sent, q, hp⟩, -⟩
  · rw [hraise, Block.raise_err]
    exact firstFault_ne_eCipher hc
  · exact absurd hp (not_portLapses_of_nil hl)

/-! ## What ends a recorded fault (R120) -/

/-- A command word that is no reset runs another command than `SRST`. -/
theorem ne_srst_of_not_isReset {v : Word} (hd : decode v = .instr i) (hn : ¬ isReset (.write 0x0004 4 v)) : i ≠ .srst := by
  rintro rfl
  have hv : v = 0x0000000F#32 := (onlyItsOwnWordDecodesToACommand v .srst).mp hd
  exact hn (.inr (by rw [hv]))

/-- While a fault is recorded a step that is no reset keeps every result register, the flags and `ERR` among them. -/
theorem step_sameResults_of_fault (hf : s.block.fault = true) (h : step s = .next t)
    (hn : ∀ input rest, s.accesses = input :: rest → ¬ isReset input) : sameResults s.block t.block := by
  cases step_ends h with
  | idle _ ht | read _ _ _ ht | illegalIgnored _ _ _ _ _ _ ht => rw [ht]; exact sameResults_refl _
  | wrote reg v _ _ _ ht => rw [ht]; exact sameResults_writeReg s.block reg v
  | command v i rest hs hd he =>
    rw [exec_of_fault (s := { s with accesses := rest }) (ne_srst_of_not_isReset hd (hn _ _ hs)) hf] at he
    cases he
    exact sameResults_refl _
  | illegalRaised _ _ _ _ _ hclear _ => exact absurd hf (by simp [hclear])
  | reset rest hs _ => exact absurd (.inl rfl) (hn _ _ hs)

/-- Settles O9: both resets put the reset block in place, and no other end of a step touches a result register. -/
theorem onlyAResetClearsAFault : Obligations.OnlyAResetClearsAFault :=
  fun _ hf => ⟨fun _ hs => step_rst hs, fun _ hs => step_srst hs, fun _ h hn => step_sameResults_of_fault hf h hn⟩

end Sys2Proof.Machine
end

section
/-! PROOFS. What the host must have done before a command (R132), and a responder that never answers (R136). -/

namespace Sys2Proof.Machine

variable {i : Instr} {b : Block}

/-! ## Requirements (R132) -/

/-- The register checks of a command have four codes between them (R118, R132). -/
theorem firstFault_mem {code : ErrCode} (h : b.firstFault i code) :
    code ∈ [ErrCode.eKey, .eLen, .eTaglen, .eNonce] := by
  cases i
  case mulmod | srst => exact absurd h id
  case kdf => obtain ⟨-, rfl⟩ | ⟨-, -, rfl⟩ := h <;> decide
  case dpad => obtain ⟨-, rfl⟩ | ⟨-, -, rfl⟩ | ⟨-, -, -, rfl⟩ := h <;> decide
  case dsub1 | dsub2 | dsub3a | dsub3b | dsub => obtain ⟨-, rfl⟩ | ⟨-, -, rfl⟩ := h <;> decide

/-- Settles O30: a ready and answered command sets `DONE` and keeps `FAULT` clear; of one that is not ready a register
check is the first to fail. -/
theorem metRequirementsMeanSuccess : Obligations.MetRequirementsMeanSuccess := by
  refine fun i s hf => ⟨fun hr ha => ?_, fun hn => ?_⟩
  · exact ⟨_, exec_of_answered hf hr ha, rfl, results_fault (.inr hf)⟩
  · obtain ⟨code, hc⟩ := (ready_or_firstFault i s.block).resolve_left hn
    exact ⟨code, firstFault_mem hc, exec_of_firstFault hf hc⟩

/-! ## A silent responder (R136) -/

/-- Settles O8: the derivation stops at the request that is never answered, and the command with it. -/
theorem silentResponderHangsTheCommand : Obligations.SilentResponderHangsTheCommand :=
  fun _ _ _ _ hf hr hp => exec_of_silent hf hr hp

end Sys2Proof.Machine
end
